-- ==== Sys2Proof/Word.lean ====
section
/-! DEFINITION. The word types of the core: bytes, 16-bit registers and words, and register numbers.

spec: 00_scope.md R9, R10, R11; 10_state.md R20. Every value of this hardware is unsigned. -/

namespace Sys2Proof

/-- An 8-bit value (`u8`): a general register, a timer, a memory cell, an immediate `kk` (R9). -/
abbrev Byte := BitVec 8

/-- A 16-bit value (`u16`): I, pc, a stack entry, an opcode word (R9, R24, R25). -/
abbrev Half := BitVec 16

/-- The number of a general register V0..VF: every index 0..15 names a register (R20). -/
abbrev Reg := Fin 16

/-- V0, the register Bnnn adds (R117). -/
abbrev Reg.v0 : Reg := 0

/-- VF, the flag register V[15] (R11, R21). -/
abbrev Reg.vf : Reg := 15

end Sys2Proof
end

