-- ==== Sys2Proof/Syntax.lean ====
section
/-! DEFINITION. The instructions: one constructor per row of spec/opcode_table.json, in its order.

spec: 30_encoding.md R80, R83, R85. Operands carry their exact widths, so every term is one word's reading:
`x` and `y` are register numbers (4 bits), `kk` a byte, `nnn` an address of 12 bits, `n` a height of 4 bits.
A field that an instruction decodes but does not read (R85) is kept: `y` of SHR and SHL, `x` of SKP, SKNP, LD Vx, K. -/

namespace Sys2Proof

inductive Instr where
  /-- 00E0 (R208). -/
  | cls
  /-- 00EE (R110). -/
  | ret
  /-- 1nnn (R111). -/
  | jp (nnn : BitVec 12)
  /-- 2nnn (R112). -/
  | call (nnn : BitVec 12)
  /-- 3xkk (R113). -/
  | seImm (x : Reg) (kk : Byte)
  /-- 4xkk (R114). -/
  | sneImm (x : Reg) (kk : Byte)
  /-- 5xy0 (R115). -/
  | seReg (x y : Reg)
  /-- 6xkk (R140). -/
  | ldImm (x : Reg) (kk : Byte)
  /-- 7xkk (R141). -/
  | addImm (x : Reg) (kk : Byte)
  /-- 8xy0 (R142). -/
  | ldReg (x y : Reg)
  /-- 8xy1 (R143). -/
  | or (x y : Reg)
  /-- 8xy2 (R144). -/
  | and (x y : Reg)
  /-- 8xy3 (R145). -/
  | xor (x y : Reg)
  /-- 8xy4 (R146). -/
  | addReg (x y : Reg)
  /-- 8xy5 (R147). -/
  | sub (x y : Reg)
  /-- 8xy6 (R148); `y` is decoded and not read. -/
  | shr (x y : Reg)
  /-- 8xy7 (R149). -/
  | subn (x y : Reg)
  /-- 8xyE (R150); `y` is decoded and not read. -/
  | shl (x y : Reg)
  /-- 9xy0 (R116). -/
  | sneReg (x y : Reg)
  /-- Annn (R180). -/
  | ldI (nnn : BitVec 12)
  /-- Bnnn (R117). -/
  | jpV0 (nnn : BitVec 12)
  /-- Cxkk (R151). -/
  | rnd (x : Reg) (kk : Byte)
  /-- Dxyn (R209). -/
  | drw (x y : Reg) (n : BitVec 4)
  /-- Ex9E (R243); `x` is decoded and not read. -/
  | skp (x : Reg)
  /-- ExA1 (R244); `x` is decoded and not read. -/
  | sknp (x : Reg)
  /-- Fx07 (R240). -/
  | ldVxDt (x : Reg)
  /-- Fx0A (R245); `x` is decoded and neither read nor written. -/
  | ldVxK (x : Reg)
  /-- Fx15 (R241). -/
  | ldDtVx (x : Reg)
  /-- Fx18 (R242). -/
  | ldStVx (x : Reg)
  /-- Fx1E (R181). -/
  | addI (x : Reg)
  /-- Fx29 (R182). -/
  | ldF (x : Reg)
  /-- Fx33 (R183). -/
  | ldB (x : Reg)
  /-- Fx55 (R184). -/
  | ldMemVx (x : Reg)
  /-- Fx65 (R185). -/
  | ldVxMem (x : Reg)
deriving DecidableEq, Repr

end Sys2Proof
end

