-- ==== Sys2Proof/Decode.lean ====
section
/-! DEFINITION. Decoding opcode words and bytes, total and rejecting by name, and the encoder after it.

spec: 30_encoding.md R80 to R87, R91; spec/opcode_table.json. -/

namespace Sys2Proof

/-- Why bytes are no instruction. -/
inductive DecodeError where
  /-- The word matches no row of the opcode map: `Unknown` (R84). -/
  | unknown (op : Half)
  /-- Fewer than two bytes: every instruction is two bytes (R80, R87). -/
  | truncated
deriving DecidableEq, Repr

/-! ## Fields (R81) -/

/-- `t = op[15:12]`, the family. -/
def fieldT (op : Half) : BitVec 4 := op.extractLsb' 12 4
/-- The four bits `op[11:8]`. -/
def fieldX (op : Half) : BitVec 4 := op.extractLsb' 8 4
/-- The four bits `op[7:4]`. -/
def fieldY (op : Half) : BitVec 4 := op.extractLsb' 4 4
/-- `n = op[3:0]`. -/
def fieldN (op : Half) : BitVec 4 := op.extractLsb' 0 4
/-- `kk = op[7:0]`. -/
def fieldKK (op : Half) : Byte := op.extractLsb' 0 8
/-- `nnn = op[11:0]`. -/
def fieldNNN (op : Half) : BitVec 12 := op.extractLsb' 0 12

/-- The register a 4-bit field names: `Vx` is `V[x]` (R81). -/
def regOf (b : BitVec 4) : Reg := ⟨b.toNat, b.isLt⟩

/-- The 4-bit field that names a register. -/
def regBits (r : Reg) : BitVec 4 := BitVec.ofNat 4 r.val

/-! ## The decoder (R83) -/

/-- Family 8: the low nibble selects the operation. -/
def decodeAlu (op : Half) (x y : Reg) : Except DecodeError Instr :=
  match fieldN op with
  | 0x0#4 => .ok (.ldReg x y)
  | 0x1#4 => .ok (.or x y)
  | 0x2#4 => .ok (.and x y)
  | 0x3#4 => .ok (.xor x y)
  | 0x4#4 => .ok (.addReg x y)
  | 0x5#4 => .ok (.sub x y)
  | 0x6#4 => .ok (.shr x y)
  | 0x7#4 => .ok (.subn x y)
  | 0xE#4 => .ok (.shl x y)
  | _ => .error (.unknown op)

/-- Family F: the low byte selects the operation. -/
def decodeMisc (op : Half) (x : Reg) : Except DecodeError Instr :=
  match fieldKK op with
  | 0x07#8 => .ok (.ldVxDt x)
  | 0x0A#8 => .ok (.ldVxK x)
  | 0x15#8 => .ok (.ldDtVx x)
  | 0x18#8 => .ok (.ldStVx x)
  | 0x1E#8 => .ok (.addI x)
  | 0x29#8 => .ok (.ldF x)
  | 0x33#8 => .ok (.ldB x)
  | 0x55#8 => .ok (.ldMemVx x)
  | 0x65#8 => .ok (.ldVxMem x)
  | _ => .error (.unknown op)

/-- `Decode(op)`: a total function from every 16-bit word to one instruction or to `Unknown` (R83, R84). -/
def decodeWord (op : Half) : Except DecodeError Instr :=
  let x := regOf (fieldX op)
  let y := regOf (fieldY op)
  match fieldT op with
  | 0x0#4 => if op = 0x00E0 then .ok .cls else if op = 0x00EE then .ok .ret else .error (.unknown op)
  | 0x1#4 => .ok (.jp (fieldNNN op))
  | 0x2#4 => .ok (.call (fieldNNN op))
  | 0x3#4 => .ok (.seImm x (fieldKK op))
  | 0x4#4 => .ok (.sneImm x (fieldKK op))
  | 0x5#4 => if fieldN op = 0x0 then .ok (.seReg x y) else .error (.unknown op)
  | 0x6#4 => .ok (.ldImm x (fieldKK op))
  | 0x7#4 => .ok (.addImm x (fieldKK op))
  | 0x8#4 => decodeAlu op x y
  | 0x9#4 => if fieldN op = 0x0 then .ok (.sneReg x y) else .error (.unknown op)
  | 0xA#4 => .ok (.ldI (fieldNNN op))
  | 0xB#4 => .ok (.jpV0 (fieldNNN op))
  | 0xC#4 => .ok (.rnd x (fieldKK op))
  | 0xD#4 => .ok (.drw x y (fieldN op))
  | 0xE#4 =>
    if fieldKK op = 0x9E then .ok (.skp x)
    else if fieldKK op = 0xA1 then .ok (.sknp x)
    else .error (.unknown op)
  | _ => decodeMisc op x

/-- The word of two bytes, the byte at the lower address first: big-endian (20_memory.md R54, 30_encoding.md R82). -/
def wordOfBytes (hi lo : Byte) : Half := hi ++ lo

/-- Decoding a list of bytes: the decoder always consumes exactly two (R87). -/
def decode : List Byte → Except DecodeError (Instr × List Byte)
  | hi :: lo :: rest =>
    match decodeWord (wordOfBytes hi lo) with
    | .ok i => .ok (i, rest)
    | .error e => .error e
  | _ => .error .truncated

/-! ## The encoder (R80, R83) -/

/-- A word from its four nibbles, the family first. -/
def wordOfNibbles (t x y n : BitVec 4) : Half := t ++ x ++ y ++ n

/-- A word of the forms `1nnn`, `2nnn`, `Annn`, `Bnnn`. -/
def wordNNN (t : BitVec 4) (nnn : BitVec 12) : Half := t ++ nnn

/-- A word of the forms `txkk`. -/
def wordXKK (t : BitVec 4) (x : Reg) (kk : Byte) : Half := t ++ regBits x ++ kk

/-- A word of the forms `txyn`. -/
def wordXYN (t : BitVec 4) (x y : Reg) (n : BitVec 4) : Half := wordOfNibbles t (regBits x) (regBits y) n

/-- The opcode word of an instruction, from the encoding column of R83. -/
def encode : Instr → Half
  | .cls => 0x00E0
  | .ret => 0x00EE
  | .jp nnn => wordNNN 0x1 nnn
  | .call nnn => wordNNN 0x2 nnn
  | .seImm x kk => wordXKK 0x3 x kk
  | .sneImm x kk => wordXKK 0x4 x kk
  | .seReg x y => wordXYN 0x5 x y 0x0
  | .ldImm x kk => wordXKK 0x6 x kk
  | .addImm x kk => wordXKK 0x7 x kk
  | .ldReg x y => wordXYN 0x8 x y 0x0
  | .or x y => wordXYN 0x8 x y 0x1
  | .and x y => wordXYN 0x8 x y 0x2
  | .xor x y => wordXYN 0x8 x y 0x3
  | .addReg x y => wordXYN 0x8 x y 0x4
  | .sub x y => wordXYN 0x8 x y 0x5
  | .shr x y => wordXYN 0x8 x y 0x6
  | .subn x y => wordXYN 0x8 x y 0x7
  | .shl x y => wordXYN 0x8 x y 0xE
  | .sneReg x y => wordXYN 0x9 x y 0x0
  | .ldI nnn => wordNNN 0xA nnn
  | .jpV0 nnn => wordNNN 0xB nnn
  | .rnd x kk => wordXKK 0xC x kk
  | .drw x y n => wordXYN 0xD x y n
  | .skp x => wordXKK 0xE x 0x9E
  | .sknp x => wordXKK 0xE x 0xA1
  | .ldVxDt x => wordXKK 0xF x 0x07
  | .ldVxK x => wordXKK 0xF x 0x0A
  | .ldDtVx x => wordXKK 0xF x 0x15
  | .ldStVx x => wordXKK 0xF x 0x18
  | .addI x => wordXKK 0xF x 0x1E
  | .ldF x => wordXKK 0xF x 0x29
  | .ldB x => wordXKK 0xF x 0x33
  | .ldMemVx x => wordXKK 0xF x 0x55
  | .ldVxMem x => wordXKK 0xF x 0x65

/-- The high byte of a word, stored at the lower address (R54). -/
def highByte (op : Half) : Byte := op.extractLsb' 8 8
/-- The low byte of a word, stored at the higher address (R54). -/
def lowByte (op : Half) : Byte := op.extractLsb' 0 8

/-- The two bytes of an instruction in memory order. -/
def encodeBytes (i : Instr) : List Byte := [highByte (encode i), lowByte (encode i)]

/-! ## The opcode map as the table gives it (R83) -/

/-- One row of the opcode map: a word `op` is of the row when `op & mask = value`. -/
structure OpcodeRow where
  mask : Half
  value : Half
deriving DecidableEq, Repr

/-- A word is of a row (R83). -/
def OpcodeRow.covers (r : OpcodeRow) (op : Half) : Bool := op &&& r.mask == r.value

/-- The mask and match columns of R83, row by row: families 0 to 7. -/
def opcodeRowsLow : List OpcodeRow :=
  [⟨0xFFFF, 0x00E0⟩, ⟨0xFFFF, 0x00EE⟩, ⟨0xF000, 0x1000⟩, ⟨0xF000, 0x2000⟩, ⟨0xF000, 0x3000⟩,
   ⟨0xF000, 0x4000⟩, ⟨0xF00F, 0x5000⟩, ⟨0xF000, 0x6000⟩, ⟨0xF000, 0x7000⟩]

/-- The rows of families 8 to D. -/
def opcodeRowsMid : List OpcodeRow :=
  [⟨0xF00F, 0x8000⟩, ⟨0xF00F, 0x8001⟩, ⟨0xF00F, 0x8002⟩, ⟨0xF00F, 0x8003⟩, ⟨0xF00F, 0x8004⟩,
   ⟨0xF00F, 0x8005⟩, ⟨0xF00F, 0x8006⟩, ⟨0xF00F, 0x8007⟩, ⟨0xF00F, 0x800E⟩, ⟨0xF00F, 0x9000⟩,
   ⟨0xF000, 0xA000⟩, ⟨0xF000, 0xB000⟩, ⟨0xF000, 0xC000⟩, ⟨0xF000, 0xD000⟩]

/-- The rows of families E and F. -/
def opcodeRowsHigh : List OpcodeRow :=
  [⟨0xF0FF, 0xE09E⟩, ⟨0xF0FF, 0xE0A1⟩, ⟨0xF0FF, 0xF007⟩, ⟨0xF0FF, 0xF00A⟩, ⟨0xF0FF, 0xF015⟩,
   ⟨0xF0FF, 0xF018⟩, ⟨0xF0FF, 0xF01E⟩, ⟨0xF0FF, 0xF029⟩, ⟨0xF0FF, 0xF033⟩, ⟨0xF0FF, 0xF055⟩,
   ⟨0xF0FF, 0xF065⟩]

/-- All 34 rows. -/
def opcodeRows : List OpcodeRow := opcodeRowsLow ++ opcodeRowsMid ++ opcodeRowsHigh

/-- The row of R83 an instruction belongs to. -/
def Instr.row : Instr → OpcodeRow
  | .cls => ⟨0xFFFF, 0x00E0⟩
  | .ret => ⟨0xFFFF, 0x00EE⟩
  | .jp _ => ⟨0xF000, 0x1000⟩
  | .call _ => ⟨0xF000, 0x2000⟩
  | .seImm _ _ => ⟨0xF000, 0x3000⟩
  | .sneImm _ _ => ⟨0xF000, 0x4000⟩
  | .seReg _ _ => ⟨0xF00F, 0x5000⟩
  | .ldImm _ _ => ⟨0xF000, 0x6000⟩
  | .addImm _ _ => ⟨0xF000, 0x7000⟩
  | .ldReg _ _ => ⟨0xF00F, 0x8000⟩
  | .or _ _ => ⟨0xF00F, 0x8001⟩
  | .and _ _ => ⟨0xF00F, 0x8002⟩
  | .xor _ _ => ⟨0xF00F, 0x8003⟩
  | .addReg _ _ => ⟨0xF00F, 0x8004⟩
  | .sub _ _ => ⟨0xF00F, 0x8005⟩
  | .shr _ _ => ⟨0xF00F, 0x8006⟩
  | .subn _ _ => ⟨0xF00F, 0x8007⟩
  | .shl _ _ => ⟨0xF00F, 0x800E⟩
  | .sneReg _ _ => ⟨0xF00F, 0x9000⟩
  | .ldI _ => ⟨0xF000, 0xA000⟩
  | .jpV0 _ => ⟨0xF000, 0xB000⟩
  | .rnd _ _ => ⟨0xF000, 0xC000⟩
  | .drw _ _ _ => ⟨0xF000, 0xD000⟩
  | .skp _ => ⟨0xF0FF, 0xE09E⟩
  | .sknp _ => ⟨0xF0FF, 0xE0A1⟩
  | .ldVxDt _ => ⟨0xF0FF, 0xF007⟩
  | .ldVxK _ => ⟨0xF0FF, 0xF00A⟩
  | .ldDtVx _ => ⟨0xF0FF, 0xF015⟩
  | .ldStVx _ => ⟨0xF0FF, 0xF018⟩
  | .addI _ => ⟨0xF0FF, 0xF01E⟩
  | .ldF _ => ⟨0xF0FF, 0xF029⟩
  | .ldB _ => ⟨0xF0FF, 0xF033⟩
  | .ldMemVx _ => ⟨0xF0FF, 0xF055⟩
  | .ldVxMem _ => ⟨0xF0FF, 0xF065⟩

/-! ## The host's entry -/

/-- The instruction the decoder reads from the two bytes of a table word; bits at and above `nbits` are 0. -/
def decodeTableWord (nbits w : Nat) : Option Instr :=
  let op : Half := BitVec.ofNat 16 (w % 2 ^ nbits)
  match decode [highByte op, lowByte op] with
  | .ok (i, _) => some i
  | .error _ => none

end Sys2Proof
end

