-- ==== Sys2Proof/Config.lean ====
section
/-! DEFINITION. The implementation parameters of the core and its free values.

spec: 00_scope.md R8. The parameters are fixed at construction. A `Config` is plain data that the state
carries, so that every statement about all states holds for every choice of the open parameters (log entry 4).
CADENCE has no field: it is a timing parameter no rule depends on (R8, R310; log entry 21). -/

namespace Sys2Proof

/-- The parameters of R8 that a rule of the core reads. -/
structure Config where
  /-- `DISPLAY_W`, the number of columns (64 for this hardware, R8, R33). -/
  displayW : Nat
  /-- `DISPLAY_H`, the number of rows (32 for this hardware, R8, R33). -/
  displayH : Nat
  /-- `STACK_LIMIT`: `none` is the baseline, an unbounded stack (R29). -/
  stackLimit : Option Nat
  /-- `SPEED`: instructions per cycle batch (R8, R269). -/
  speed : Nat
  /-- `TONE_HZ`: the frequency passed to `play` (R8, R276). DESIGN CHOICE: a whole number of Hz; decision D22 says only "a
  positive number" and gives `frequency_hz` no type, so a fractional frequency cannot be configured (log entry 27). -/
  toneHz : Nat
  /-- `FONT`: the 80 bytes placed at 0x000..0x04F (R8, R45). -/
  font : Vector Byte 80
deriving DecidableEq, Repr

/-- The random byte of the `n`-th execution of Cxkk: a FREE VALUE. It has no body, so nothing can be proved
about any draw or about a relation between draws (42_alu.md R151; log entry 9). -/
opaque Config.randomByte : Nat → Byte

/-- One less than the tone frequency of the baseline: a FREE VALUE, since the source gives no frequency and
says only that it is a positive number (decision D22; log entry 5). -/
opaque Config.toneHzPred : Nat

/-- The default glyphs of digits 0 to 7 (10_state.md R45). PRESUMED: general knowledge, not in the source
(decision D8; log entry 7). -/
def Config.glyphsLow : List Byte :=
  [0xF0, 0x90, 0x90, 0x90, 0xF0] ++ [0x20, 0x60, 0x20, 0x20, 0x70] ++
  [0xF0, 0x10, 0xF0, 0x80, 0xF0] ++ [0xF0, 0x10, 0xF0, 0x10, 0xF0] ++
  [0x90, 0x90, 0xF0, 0x10, 0x10] ++ [0xF0, 0x80, 0xF0, 0x10, 0xF0] ++
  [0xF0, 0x80, 0xF0, 0x90, 0xF0] ++ [0xF0, 0x10, 0x20, 0x40, 0x40]

/-- The default glyphs of digits 8 to F (10_state.md R45). PRESUMED, as `Config.glyphsLow`. -/
def Config.glyphsHigh : List Byte :=
  [0xF0, 0x90, 0xF0, 0x90, 0xF0] ++ [0xF0, 0x90, 0xF0, 0x10, 0xF0] ++
  [0xF0, 0x90, 0xF0, 0x90, 0x90] ++ [0xE0, 0x90, 0xE0, 0x90, 0xE0] ++
  [0xF0, 0x80, 0x80, 0x80, 0xF0] ++ [0xE0, 0x90, 0x90, 0x90, 0xE0] ++
  [0xF0, 0x80, 0xF0, 0x80, 0xF0] ++ [0xF0, 0x80, 0xF0, 0x80, 0x80]

/-- The default `FONT`: 16 glyphs of 5 bytes, glyph `d` at `5 d` (R45). -/
def Config.defaultFont : Vector Byte 80 :=
  ⟨(Config.glyphsLow ++ Config.glyphsHigh).toArray, by decide⟩

/-- The parameters `State.reset` is built with: 64 columns, 32 rows, no stack limit (R8, the baseline), SPEED 60
(DESIGN CHOICE: R8 leaves SPEED open and gives 60 as the source's example; log entry 3), an open tone
frequency, the default font. -/
def Config.baseline : Config where
  displayW := 64
  displayH := 32
  stackLimit := none
  speed := 60
  toneHz := Config.toneHzPred + 1
  font := Config.defaultFont

end Sys2Proof
end

