-- ==== Sys2Proof/Machine/State.lean ====
section
/-! DEFINITION. The state of the core as plain data, the errors it can raise, and its reset value.

spec: 10_state.md (the tuple V, I, pc, stack, DT, ST, mem, disp, status and R20 to R48), 60_exceptions.md R260. -/

namespace Sys2Proof.Machine

/-- The kind and details of a `DimensionError` (R260, R264). Coordinates are the `Int` values before wrapping. -/
inductive DimDetail where
  /-- A rejected column coordinate. -/
  | x (c : Int)
  /-- A rejected row coordinate. -/
  | y (c : Int)
  /-- A rejected buffer size, at construction. -/
  | init (w h : Nat)
deriving DecidableEq, Repr

/-- The error kinds of R260, in the order of their codes. -/
inductive CoreError where
  /-- Code 1: the executed word is `Unknown` (R84, R90, R261). -/
  | unknownOpcode (op : Half)
  /-- Code 2: 00EE with an empty stack (R110, R262). -/
  | stackUnderflow
  /-- Code 3: a coordinate or a buffer size is rejected (R203 to R206, R264). -/
  | dimension (d : DimDetail)
  /-- Code 4: a byte access above 0xFFF (R51, R52, R265). Addresses the core forms are never negative. -/
  | addressOutOfRange (addr : Nat)
  /-- Code 5: 2nnn at the configured stack limit (R112, R263). -/
  | stackOverflow
  /-- Code 6: the program image is longer than 3584 bytes (R266, R301). -/
  | programTooLarge (len : Nat)
deriving DecidableEq, Repr

/-- `status` (R34). -/
inductive Status where
  | running
  | halted (e : CoreError)
deriving DecidableEq, Repr

/-- A command on an output port (R36). -/
inductive Output where
  /-- `audio.play(frequency_hz)` (R276). DESIGN CHOICE: the frequency is a whole number of Hz (log entry 27). -/
  | play (hz : Nat)
  /-- `audio.stop()` (R276). -/
  | stop
  /-- `display.render()`: show the buffer as it stands (R207, R277). -/
  | render
deriving DecidableEq, Repr

/-- Why the machine has no next state. The spec gives one case only. -/
inductive Fault where
  /-- The core is halted by `e`: a halted core has no step (R268). Raised by `step`, `execute` at a host call and
  `cycle`, never by an instruction. Safe: the spec enables no operation here (log entry 1). -/
  | coreHalted (e : CoreError)
deriving DecidableEq, Repr

/-- Why an instruction is refused. -/
inductive Refusal where
  /-- The instruction has no meaning in the model. No arm of `exec` answers it: all 34 instructions are modelled.
  Safe. -/
  | notModelled (mnemonic : String)
deriving DecidableEq, Repr

/-- Memory: the cells that differ from the reset contents, addresses strictly rising (`Memory.wf`). -/
abbrev Memory := List Host.Cell

/-- The display buffer: `H` rows of `W` pixels, row 0 first; `true` is a lit pixel (R33). -/
abbrev Display := List (List Bool)

/-- The state. The first nine fields are the spec's tuple; the last four are the model's own (INVENTORY.md). -/
structure State where
  /-- V0..VF (R20). -/
  v : Vector Byte 16
  /-- The index register I (R24). -/
  i : Half
  /-- The program counter (R25). -/
  pc : Half
  /-- The call stack, its top first (R28; log entry 25). -/
  stack : List Half
  /-- The delay timer DT (R30). -/
  dt : Byte
  /-- The sound timer ST (R31). -/
  st : Byte
  /-- The 4096 bytes of memory (R32, R50). -/
  mem : Memory
  /-- The display buffer (R33). -/
  disp : Display
  /-- Running, or halted by an error (R34). -/
  status : Status
  /-- The construction parameters (R8); no operation changes them (log entry 4). -/
  cfg : Config
  /-- How many instruction slots of the current batch are used; 0 between cycles (R269, R310; log entry 2). -/
  slot : Nat
  /-- How many random bytes have been drawn (R151; log entry 9). -/
  draws : Nat
  /-- The commands the last step drove on the output ports, in order (R36; log entry 19). -/
  out : List Output
deriving DecidableEq, Repr

/-- The running core right after construction with an empty image and the baseline parameters (R39 to R48, R300;
log entries 3 to 12). -/
def State.reset : State where
  v := Vector.replicate 16 0
  i := 0
  pc := 0x200
  stack := []
  dt := 0
  st := 0
  mem := []
  disp := List.replicate 32 (List.replicate 64 false)
  status := .running
  cfg := Config.baseline
  slot := 0
  draws := 0
  out := []

/-- The result of a sequence of pseudocode statements (00_scope.md R14, R15): it goes on with a value and the
state so far, or an error ends it there, with every write made before it standing (R267). -/
inductive Flow (α : Type) where
  | go (a : α) (s : State)
  | stop (e : CoreError) (s : State)
deriving DecidableEq, Repr

end Sys2Proof.Machine
end

