-- ==== Sys2Proof/Machine/Ops.lean ====
section
/-! DEFINITION. The named operations over the state: single-field updates, sequencing and raising an error,
memory, fetch, and the call stack.

spec: 00_scope.md R11 to R16; 20_memory.md; 30_encoding.md R82; 41_control_flow.md R110, R112; 60_exceptions.md R267, R268. -/

namespace Sys2Proof.Machine

/-! ## Single-field updates -/

/-- `V[r] <- b` (R11). -/
def State.setReg (s : State) (r : Reg) (b : Byte) : State := { s with v := s.v.set r.val b r.isLt }
/-- `I <- a`. -/
def State.setI (s : State) (a : Half) : State := { s with i := a }
/-- `pc <- a`. -/
def State.setPc (s : State) (a : Half) : State := { s with pc := a }
def State.setStack (s : State) (l : List Half) : State := { s with stack := l }
/-- `DT <- b`. -/
def State.setDt (s : State) (b : Byte) : State := { s with dt := b }
/-- `ST <- b`. -/
def State.setSt (s : State) (b : Byte) : State := { s with st := b }
def State.setMem (s : State) (m : Memory) : State := { s with mem := m }
def State.setDisp (s : State) (d : Display) : State := { s with disp := d }
def State.setDraws (s : State) (n : Nat) : State := { s with draws := n }
def State.setSlot (s : State) (n : Nat) : State := { s with slot := n }
def State.setOut (s : State) (o : List Output) : State := { s with out := o }

/-! ## Errors and sequencing (R14, R15, R267, R268) -/

/-- Taking an error: `status <- Halted(e)` and nothing else. The spec gives no saved registers, no handler and
no return from it (60_exceptions.md R268, R272). -/
def State.raise (s : State) (e : CoreError) : State := { s with status := .halted e }

/-- Whether an error has halted the core. -/
def State.isHalted (s : State) : Bool :=
  match s.status with
  | .running => false
  | .halted _ => true

/-- The numeric code of an error kind (R260). -/
def CoreError.code : CoreError → Nat
  | .unknownOpcode _ => 1
  | .stackUnderflow => 2
  | .dimension _ => 3
  | .addressOutOfRange _ => 4
  | .stackOverflow => 5
  | .programTooLarge _ => 6

/-- One statement after another: the second sees the state the first left, and does not run after an error (R15). -/
def Flow.bind {α β : Type} (m : Flow α) (f : α → State → Flow β) : Flow β :=
  match m with
  | .go a s => f a s
  | .stop e s => .stop e s

/-- `for k in ks`, in the order of the list, carrying a local variable `acc` (R16). -/
def Flow.fold {κ σ : Type} (f : σ → κ → State → Flow σ) : List κ → σ → State → Flow σ
  | [], acc, s => .go acc s
  | k :: ks, acc, s => (f acc k s).bind fun acc' s' => Flow.fold f ks acc' s'

/-- The state the statements have reached, before an error is recorded in it. -/
def Flow.state {α : Type} : Flow α → State
  | .go _ s => s
  | .stop _ s => s

/-- The state an instruction leaves: an error is raised on the state its earlier statements left (R267). -/
def Flow.toState {α : Type} : Flow α → State
  | .go _ s => s
  | .stop e s => s.raise e

/-- The outcome of an instruction's statements: a next state, halted if they raised an error (log entry 1). -/
def Flow.finish {α : Type} (m : Flow α) : Host.Outcome State Fault Refusal := .next m.toState

/-! ## Memory (20_memory.md) -/

/-- The highest address (R50). -/
def addrMax : Nat := 0xFFF

/-- What an unlisted address reads as: the reset contents, FONT in the lowest 80 bytes and 0x00 above (R44, R45, R58;
log entries 7 and 11). -/
def Memory.resetByte (font : Vector Byte 80) (a : Nat) : Byte := if h : a < 80 then font[a] else 0

/-- The listed byte at an address. -/
def Memory.lookup (a : Nat) : Memory → Option Byte
  | [] => none
  | (k, b) :: m => if k = a then some b else Memory.lookup a m

/-- `mem[a]`. -/
def Memory.read (font : Vector Byte 80) (m : Memory) (a : Nat) : Byte :=
  (Memory.lookup a m).getD (Memory.resetByte font a)

/-- Take an address out of the list. -/
def Memory.unlist (a : Nat) : Memory → Memory
  | [] => []
  | (k, b) :: m => if k = a then Memory.unlist a m else (k, b) :: Memory.unlist a m

/-- List a byte at its place. -/
def Memory.list (a : Nat) (b : Byte) : Memory → Memory
  | [] => [(a, b)]
  | (k, c) :: m =>
    if k = a then (a, b) :: m
    else if a < k then (a, b) :: (k, c) :: m
    else (k, c) :: Memory.list a b m

/-- `mem[a] <- b`, keeping the canonical form. -/
def Memory.write (font : Vector Byte 80) (m : Memory) (a : Nat) (b : Byte) : Memory :=
  if b = Memory.resetByte font a then Memory.unlist a m else Memory.list a b m

/-- Bytes stored one after another from an address upwards. -/
def Memory.writeList (font : Vector Byte 80) (m : Memory) (a : Nat) : List Byte → Memory
  | [] => m
  | b :: bs => Memory.writeList font (Memory.write font m a b) (a + 1) bs

/-- The canonical form: addresses strictly rising, inside the address space, and no entry equal to what its address
reads as unlisted. -/
abbrev Memory.wf (font : Vector Byte 80) (m : Memory) : Prop :=
  m.Pairwise (fun c d => c.1 < d.1) ∧ ∀ c ∈ m, c.1 ≤ addrMax ∧ c.2 ≠ Memory.resetByte font c.1

/-- The byte at an address. -/
def State.byteAt (s : State) (a : Nat) : Byte := Memory.read s.cfg.font s.mem a

/-- `MemRead(a, 1)` (R51). -/
def memRead (a : Nat) (s : State) : Flow Byte :=
  if a ≤ addrMax then .go (s.byteAt a) s else .stop (.addressOutOfRange a) s

/-- `MemWrite(a, 1, b)` (R52). -/
def memWrite (a : Nat) (b : Byte) (s : State) : Flow Unit :=
  if a ≤ addrMax then .go () (s.setMem (Memory.write s.cfg.font s.mem a b)) else .stop (.addressOutOfRange a) s

/-! ## Fetch (30_encoding.md R82) -/

/-- `Fetch()`: two bytes at pc, the high byte first; pc is not changed. -/
def fetch (s : State) : Flow Half :=
  (memRead s.pc.toNat s).bind fun hi s1 =>
    (memRead (s.pc.toNat + 1) s1).bind fun lo s2 => .go (wordOfBytes hi lo) s2

/-- `pc <- (pc + 2) mod 65536`, the common increment (R90). -/
def State.advance (s : State) : State := s.setPc (s.pc + 2)

/-! ## The call stack (10_state.md R28, R29) -/

/-- The stack is at its configured limit: `STACK_LIMIT != none and depth(stack) == STACK_LIMIT` (R112). -/
def State.stackFull (s : State) : Bool := s.cfg.stackLimit == some s.stack.length

/-- `push(a)` behind the overflow check of R112. -/
def pushReturn (a : Half) (s : State) : Flow Unit :=
  if s.stackFull then .stop .stackOverflow s else .go () (s.setStack (a :: s.stack))

/-- `pop()` behind the underflow check of R110. -/
def popReturn (s : State) : Flow Half :=
  match s.stack with
  | [] => .stop .stackUnderflow s
  | a :: rest => .go a (s.setStack rest)

/-! ## The random-byte input (42_alu.md R151) -/

/-- `RandomByte()`: the next draw, a free value, and the counter moves on (log entry 9). -/
def randomByte (s : State) : Flow Byte := .go (Config.randomByte s.draws) (s.setDraws (s.draws + 1))

end Sys2Proof.Machine
end

