-- ==== Sys2Proof/Machine/Operands.lean ====
section
/-! DEFINITION. Operand forms: general registers, the registers V0..Vx, effective addresses and skip targets.

spec: 30_encoding.md R81; 20_memory.md R53; 43_index_memory.md R186; 41_control_flow.md R118. -/

namespace Sys2Proof.Machine

/-- `V[r]` (R81). -/
def State.reg (s : State) (r : Reg) : Byte := s.v[r.val]

/-- `VF <- b` (R11). -/
def State.setVF (s : State) (b : Byte) : State := s.setReg Reg.vf b

/-- The registers V0..Vx in ascending order: `for k in 0..x` (R184, R185). -/
def regsUpTo (x : Reg) : List Reg := (List.finRange 16).take (x.val + 1)

/-- The effective address `I + k`, an exact sum with no wrap (R53, R186). -/
def State.ea (s : State) (k : Nat) : Nat := s.i.toNat + k

/-- A 12-bit address operand as a 16-bit value: zero extension (R81, R180). -/
def addrOperand (nnn : BitVec 12) : Half := nnn.setWidth 16

/-- A byte as a 16-bit value: zero extension (R9). -/
def wide (b : Byte) : Half := b.setWidth 16

/-- `if c: pc <- pc + 2`, the skip of R118. -/
def State.skipIf (s : State) (c : Bool) : State := if c then s.setPc (s.pc + 2) else s

end Sys2Proof.Machine
end

