-- ==== Sys2Proof/Machine/Flags.lean ====
section
/-! DEFINITION. The values written to VF as a flag: carry, strict comparison, shifted-out bits, collision.

spec: 42_alu.md R152, R153; 44_display.md R210. Each is exactly 0 or 1. -/

namespace Sys2Proof.Machine

/-- A condition as a flag value. -/
def flagOf (c : Bool) : Byte := if c then 1 else 0

/-- The carry of 8xy4: 1 if the widened sum is above 255 (R146, R152). -/
def carryFlag (a b : Byte) : Byte := flagOf (a.toNat + b.toNat > 255)

/-- The flag of 8xy5 and 8xy7: 1 if the minuend is strictly greater (R147, R149, R152). -/
def greaterFlag (a b : Byte) : Byte := flagOf (a.toNat > b.toNat)

/-- The bit 8xy6 shifts out: bit 0 (R148). -/
def shiftOutRight (a : Byte) : Byte := a &&& 0x01

/-- The bit 8xyE shifts out: bit 7 (R150). -/
def shiftOutLeft (a : Byte) : Byte := (a >>> 7) &&& 0x01

/-- The collision flag of Dxyn: 1 if a toggle erased a cell (R209, R210). -/
def collisionFlag (erased : Bool) : Byte := flagOf erased

end Sys2Proof.Machine
end

