-- ==== Sys2Proof/Machine/Alu.lean ====
section
/-! DEFINITION. Register and arithmetic instructions (42_alu.md). Byte arithmetic is mod 256 (R152). In 8xy4 to 8xyE,
VF is written first and Vx second, each statement reading the registers as the one before it left them (R15, R153). -/

namespace Sys2Proof.Machine

/-- 6xkk, LD Vx, kk (R140). -/
def execLdImm (x : Reg) (kk : Byte) (s : State) : Host.Outcome State Fault Refusal :=
  .next (s.setReg x kk)

/-- 7xkk, ADD Vx, kk (R141): no flag. -/
def execAddImm (x : Reg) (kk : Byte) (s : State) : Host.Outcome State Fault Refusal :=
  .next (s.setReg x (s.reg x + kk))

/-- 8xy0, LD Vx, Vy (R142). -/
def execLdReg (x y : Reg) (s : State) : Host.Outcome State Fault Refusal :=
  .next (s.setReg x (s.reg y))

/-- 8xy1, OR Vx, Vy (R143). -/
def execOr (x y : Reg) (s : State) : Host.Outcome State Fault Refusal :=
  .next (s.setReg x (s.reg x ||| s.reg y))

/-- 8xy2, AND Vx, Vy (R144). -/
def execAnd (x y : Reg) (s : State) : Host.Outcome State Fault Refusal :=
  .next (s.setReg x (s.reg x &&& s.reg y))

/-- 8xy3, XOR Vx, Vy (R145). -/
def execXor (x y : Reg) (s : State) : Host.Outcome State Fault Refusal :=
  .next (s.setReg x (s.reg x ^^^ s.reg y))

/-- 8xy4, ADD Vx, Vy (R146): the widened sum is bound before either write. -/
def execAddReg (x y : Reg) (s : State) : Host.Outcome State Fault Refusal :=
  let a := s.reg x
  let b := s.reg y
  let s1 := s.setVF (carryFlag a b)
  .next (s1.setReg x (a + b))

/-- 8xy5, SUB Vx, Vy (R147): the difference reads Vx and Vy after the VF write. -/
def execSub (x y : Reg) (s : State) : Host.Outcome State Fault Refusal :=
  let s1 := s.setVF (greaterFlag (s.reg x) (s.reg y))
  .next (s1.setReg x (s1.reg x - s1.reg y))

/-- 8xy6, SHR Vx (R148): `y` is not read; the shift reads Vx after the VF write. -/
def execShr (x _y : Reg) (s : State) : Host.Outcome State Fault Refusal :=
  let s1 := s.setVF (shiftOutRight (s.reg x))
  .next (s1.setReg x (s1.reg x >>> 1))

/-- 8xy7, SUBN Vx, Vy (R149): the difference reads Vx and Vy after the VF write. -/
def execSubn (x y : Reg) (s : State) : Host.Outcome State Fault Refusal :=
  let s1 := s.setVF (greaterFlag (s.reg y) (s.reg x))
  .next (s1.setReg x (s1.reg y - s1.reg x))

/-- 8xyE, SHL Vx (R150): `y` is not read; the shift reads Vx after the VF write. -/
def execShl (x _y : Reg) (s : State) : Host.Outcome State Fault Refusal :=
  let s1 := s.setVF (shiftOutLeft (s.reg x))
  .next (s1.setReg x (s1.reg x <<< 1))

/-- Cxkk, RND Vx, kk (R151): a fresh draw masked by the immediate. -/
def execRnd (x : Reg) (kk : Byte) (s : State) : Host.Outcome State Fault Refusal :=
  ((randomByte s).bind fun r s' => .go () (s'.setReg x (r &&& kk))).finish

end Sys2Proof.Machine
end

