-- ==== Sys2Proof/Machine/ControlFlow.lean ====
section
/-! DEFINITION. Control-flow instructions (41_control_flow.md). When a meaning runs, pc already holds `p + 2` (R17, R90). -/

namespace Sys2Proof.Machine

/-- 00EE, RET (R110). -/
def execRet (s : State) : Host.Outcome State Fault Refusal :=
  ((popReturn s).bind fun a s' => .go () (s'.setPc a)).finish

/-- 1nnn, JP (R111). -/
def execJp (nnn : BitVec 12) (s : State) : Host.Outcome State Fault Refusal :=
  .next (s.setPc (addrOperand nnn))

/-- 2nnn, CALL (R112): the pushed value is the already-advanced pc. -/
def execCall (nnn : BitVec 12) (s : State) : Host.Outcome State Fault Refusal :=
  ((pushReturn s.pc s).bind fun _ s' => .go () (s'.setPc (addrOperand nnn))).finish

/-- 3xkk, SE Vx, kk (R113). -/
def execSeImm (x : Reg) (kk : Byte) (s : State) : Host.Outcome State Fault Refusal :=
  .next (s.skipIf (s.reg x == kk))

/-- 4xkk, SNE Vx, kk (R114). -/
def execSneImm (x : Reg) (kk : Byte) (s : State) : Host.Outcome State Fault Refusal :=
  .next (s.skipIf (s.reg x != kk))

/-- 5xy0, SE Vx, Vy (R115). -/
def execSeReg (x y : Reg) (s : State) : Host.Outcome State Fault Refusal :=
  .next (s.skipIf (s.reg x == s.reg y))

/-- 9xy0, SNE Vx, Vy (R116). -/
def execSneReg (x y : Reg) (s : State) : Host.Outcome State Fault Refusal :=
  .next (s.skipIf (s.reg x != s.reg y))

/-- Bnnn, JP V0, nnn (R117): the sum is not truncated; it is at most 0x10FE and fits pc. -/
def execJpV0 (nnn : BitVec 12) (s : State) : Host.Outcome State Fault Refusal :=
  .next (s.setPc (addrOperand nnn + wide (s.reg Reg.v0)))

end Sys2Proof.Machine
end

