-- ==== Sys2Proof/Machine/Buffer.lean ====
section
/-! DEFINITION. The display buffer's operations: coordinates, Clear, Toggle, Set, Read, Init, and the sprite loop.

spec: 44_display.md R200 to R206, R209. -/

namespace Sys2Proof.Machine

/-- `Init(w, h)`: every cell unset (R206, R46). -/
def Display.blank (w h : Nat) : Display := List.replicate h (List.replicate w false)

/-- `disp[cy][cx]`. -/
def Display.cell (d : Display) (cx cy : Nat) : Bool := ((d[cy]?).getD [])[cx]?.getD false

/-- `disp[cy][cx] <- b`. -/
def Display.setCell (d : Display) (cx cy : Nat) (b : Bool) : Display := d.modify cy fun row => row.set cx b

/-- The grid has `h` rows of `w` cells (R33). -/
abbrev Display.wf (w h : Nat) (d : Display) : Prop := d.length = h ∧ ∀ row ∈ d, row.length = w

/-- A coordinate is strictly in range of its dimension (R201). -/
def inRange (c : Int) (d : Nat) : Bool := 0 ≤ c && c < d

/-- `Wrap1(c, d)`: at most one dimension added or subtracted, never a modulo (R200). -/
def wrap1 (c : Int) (d : Nat) : Option Nat :=
  if inRange c d then some c.toNat
  else
    let c2 := if c ≥ d then c - d else c + d
    if inRange c2 d then some c2.toNat else none

/-- `Clear()` (R202). -/
def clearDisplay (s : State) : State := s.setDisp (Display.blank s.cfg.displayW s.cfg.displayH)

/-- `Toggle(x, y)`: the column is checked before the row, and the answer says whether the cell was erased (R203). -/
def toggle (x y : Int) (s : State) : Flow Bool :=
  match wrap1 x s.cfg.displayW with
  | none => .stop (.dimension (.x x)) s
  | some cx =>
    match wrap1 y s.cfg.displayH with
    | none => .stop (.dimension (.y y)) s
    | some cy =>
      .go (s.disp.cell cx cy) (s.setDisp (s.disp.setCell cx cy (!s.disp.cell cx cy)))

/-- Bit `7 - col` of a sprite byte: the most significant bit is column 0 (R209). -/
def spriteBit (b : Byte) (col : Nat) : Bool := b.getLsbD (7 - col)

/-- One column of one sprite row: a set bit toggles its cell, a clear bit does nothing (R209). -/
def drawCol (b : Byte) (x0 y : Nat) (erased : Bool) (col : Nat) (s : State) : Flow Bool :=
  if spriteBit b col then (toggle (x0 + col : Nat) y s).bind fun e s' => .go (erased || e) s'
  else .go erased s

/-- One sprite row: its byte is read, then its eight columns are drawn left to right (R209). -/
def drawRow (x0 y0 : Nat) (erased : Bool) (row : Nat) (s : State) : Flow Bool :=
  (memRead (s.ea row) s).bind fun b s' =>
    Flow.fold (drawCol b x0 (y0 + row)) (List.range 8) erased s'

/-- The rows of a sprite of height `n`, top to bottom; the answer says whether any cell was erased (R209). -/
def drawSprite (x0 y0 n : Nat) (s : State) : Flow Bool := Flow.fold (drawRow x0 y0) (List.range n) false s

/-- The strict check of the host ports: the column first (R201, R204). -/
def strictCheck (x y : Int) (s : State) : Except CoreError Unit :=
  if inRange x s.cfg.displayW then
    if inRange y s.cfg.displayH then .ok () else .error (.dimension (.y y))
  else .error (.dimension (.x x))

/-- `Read(x, y)` (R205). -/
def readPort (x y : Int) (s : State) : Except CoreError Bool :=
  (strictCheck x y s).map fun _ => s.disp.cell x.toNat y.toNat

/-- `Set(x, y, v)` (R204). -/
def setPort (x y : Int) (v : Bool) (s : State) : Except CoreError State :=
  (strictCheck x y s).map fun _ => s.setDisp (s.disp.setCell x.toNat y.toNat v)

end Sys2Proof.Machine
end

