-- ==== Sys2Proof/Machine/DisplayInstrs.lean ====
section
/-! DEFINITION. The display instructions (44_display.md R208, R209). -/

namespace Sys2Proof.Machine

/-- 00E0, CLS (R208). -/
def execCls (s : State) : Host.Outcome State Fault Refusal := .next (clearDisplay s)

/-- Dxyn, DRW Vx, Vy, n (R209): Vx and Vy are bound first and VF is written last. -/
def execDrw (x y : Reg) (n : BitVec 4) (s : State) : Host.Outcome State Fault Refusal :=
  ((drawSprite (s.reg x).toNat (s.reg y).toNat n.toNat s).bind fun erased s' =>
    .go () (s'.setVF (collisionFlag erased))).finish

end Sys2Proof.Machine
end

