-- ==== Sys2Proof/Machine/IndexMemory.lean ====
section
/-! DEFINITION. Index-register and memory instructions (43_index_memory.md). -/

namespace Sys2Proof.Machine

/-- Annn, LD I, nnn (R180). -/
def execLdI (nnn : BitVec 12) (s : State) : Host.Outcome State Fault Refusal :=
  .next (s.setI (addrOperand nnn))

/-- Fx1E, ADD I, Vx (R181): mod 65536, no flag. -/
def execAddI (x : Reg) (s : State) : Host.Outcome State Fault Refusal :=
  .next (s.setI (s.i + wide (s.reg x)))

/-- Fx29, LD F, Vx (R182): Vx is not masked. -/
def execLdF (x : Reg) (s : State) : Host.Outcome State Fault Refusal :=
  .next (s.setI (wide (s.reg x) * 5))

/-- The decimal digit of a byte at a divisor of 100, 10 or 1 (R183). -/
def decimalDigit (v : Byte) (divisor : Nat) : Byte := BitVec.ofNat 8 (v.toNat / divisor % 10)

/-- Fx33, LD B, Vx (R183): hundreds, tens, units at I, I + 1, I + 2. -/
def execLdB (x : Reg) (s : State) : Host.Outcome State Fault Refusal :=
  let v := s.reg x
  ((memWrite (s.ea 0) (decimalDigit v 100) s).bind fun _ s1 =>
    (memWrite (s1.ea 1) (decimalDigit v 10) s1).bind fun _ s2 =>
      memWrite (s2.ea 2) (decimalDigit v 1) s2).finish

/-- One store of Fx55: `MemWrite(I + k, 1, V[k])`. -/
def storeReg (_ : Unit) (k : Reg) (s : State) : Flow Unit := memWrite (s.ea k.val) (s.reg k) s

/-- Fx55, LD [I], Vx (R184): V0..Vx in ascending order; I is not changed. -/
def execLdMemVx (x : Reg) (s : State) : Host.Outcome State Fault Refusal :=
  (Flow.fold storeReg (regsUpTo x) () s).finish

/-- One load of Fx65: `V[k] <- MemRead(I + k, 1)`. -/
def loadReg (_ : Unit) (k : Reg) (s : State) : Flow Unit :=
  (memRead (s.ea k.val) s).bind fun b s' => .go () (s'.setReg k b)

/-- Fx65, LD Vx, [I] (R185): V0..Vx in ascending order; I is not changed. -/
def execLdVxMem (x : Reg) (s : State) : Host.Outcome State Fault Refusal :=
  (Flow.fold loadReg (regsUpTo x) () s).finish

end Sys2Proof.Machine
end

