-- ==== Sys2Proof/Machine/TimersKeys.lean ====
section
/-! DEFINITION. Timer and key instructions (45_timers_keys.md). The key instructions are deliberate no-ops (R246). -/

namespace Sys2Proof.Machine

/-- Fx07, LD Vx, DT (R240). -/
def execLdVxDt (x : Reg) (s : State) : Host.Outcome State Fault Refusal := .next (s.setReg x s.dt)

/-- Fx15, LD DT, Vx (R241). -/
def execLdDtVx (x : Reg) (s : State) : Host.Outcome State Fault Refusal := .next (s.setDt (s.reg x))

/-- Fx18, LD ST, Vx (R242). -/
def execLdStVx (x : Reg) (s : State) : Host.Outcome State Fault Refusal := .next (s.setSt (s.reg x))

/-- Ex9E, SKP Vx (R243): no skip is ever taken. -/
def execSkp (_x : Reg) (s : State) : Host.Outcome State Fault Refusal := .next s

/-- ExA1, SKNP Vx (R244): no skip is ever taken. -/
def execSknp (_x : Reg) (s : State) : Host.Outcome State Fault Refusal := .next s

/-- Fx0A, LD Vx, K (R245): it does not block and Vx is unchanged. -/
def execLdVxK (_x : Reg) (s : State) : Host.Outcome State Fault Refusal := .next s

end Sys2Proof.Machine
end

