-- ==== Sys2Proof/Machine/Batch.lean ====
section
/-! DEFINITION. One instruction step, the timer tick, the batch position, and the whole cycle batch.

spec: 30_encoding.md R90; 60_exceptions.md R267 to R269, R275 to R277. -/

namespace Sys2Proof.Machine

/-- Apply a function to the next state of an outcome. -/
def onNext (o : Host.Outcome State Fault Refusal) (f : State → State) : Host.Outcome State Fault Refusal :=
  match o with
  | .next s => .next (f s)
  | .fault r => .fault r
  | .refused r => .refused r

/-- `Execute(op)`: pc advances, then the `Unknown` check, then the instruction's rule (R90). -/
def execute (op : Half) (s : State) : Host.Outcome State Fault Refusal :=
  match decodeWord op with
  | .error _ => .next (s.advance.raise (.unknownOpcode op))
  | .ok i => exec i s.advance

/-- `Step()`: fetch at pc, then `Execute`; a fetch error leaves pc unchanged (R82, R90). -/
def stepOnce (s : State) : Host.Outcome State Fault Refusal :=
  match fetch s with
  | .stop e s' => .next (s'.raise e)
  | .go op s' => execute op s'

/-- A timer is decremented by exactly 1 if it is above 0 (R275). -/
def countDown (b : Byte) : Byte := if b = 0 then 0 else b - 1

/-- `AudioCommand()`: exactly one of `play` and `stop`, from ST after the decrement (R276). -/
def audioCommand (s : State) : Output := if s.st = 0 then .stop else .play s.cfg.toneHz

/-- `Tick()`: the decrements, the audio command, then the render request (R275, R276, R277). -/
def tick (s : State) : State :=
  let s1 := (s.setDt (countDown s.dt)).setSt (countDown s.st)
  s1.setOut [audioCommand s1, .render]

/-- The end of one instruction slot of a batch: an error ends the batch at once with no tick (R268, R269, R312);
the last of SPEED slots is followed by the tick; any other only counts (R269, R310; log entries 2 and 23). -/
def closeSlot (s : State) : State :=
  if s.isHalted then s.setSlot 0
  else if s.cfg.speed ≤ s.slot + 1 then (tick s).setSlot 0
  else s.setSlot (s.slot + 1)

/-- An operation the spec enables only while `status == Running` (R268). -/
def whenRunning (s : State) (o : Host.Outcome State Fault Refusal) : Host.Outcome State Fault Refusal :=
  match s.status with
  | .running => o
  | .halted e => .fault (.coreHalted e)

/-- `for k in 1..n: Step()`, stopping at an error (R269). -/
def stepMany : Nat → State → Host.Outcome State Fault Refusal
  | 0, s => .next s
  | n + 1, s =>
    match stepOnce s with
    | .next t => if t.isHalted then .next t else stepMany n t
    | .fault r => .fault r
    | .refused r => .refused r

/-- `Cycle()`: SPEED steps and then the tick, with no tick after an error (R269). -/
def cycle (s : State) : Host.Outcome State Fault Refusal :=
  whenRunning s (onNext (stepMany s.cfg.speed (s.setOut [])) fun t => if t.isHalted then t else tick t)

end Sys2Proof.Machine
end

