-- ==== Sys2Proof/Machine/Step.lean ====
section
/-! DEFINITION. One step of the machine: one instruction slot of a cycle batch, and the placing of a word where the
next step fetches.

spec: 30_encoding.md R90; 60_exceptions.md R268, R269. -/

namespace Sys2Proof.Machine

/-- One step: a halted core has none (R268); a running one executes one instruction, and the slot that completes a
batch of SPEED instructions is followed by the tick (R269; log entries 1 and 2). -/
def step (s : State) : Host.Outcome State Fault Refusal :=
  whenRunning s (onNext (stepOnce (s.setOut [])) closeSlot)

/-- `s` with an opcode word stored where the next step fetches it: the two bytes at pc, high byte first (R54). What
the fetch needs and nothing else: the core running, and pc at an address a fetch can read (log entry 20). -/
def State.withFetchWord (s : State) (nbits w : Nat) : State :=
  let op : Half := BitVec.ofNat 16 (w % 2 ^ nbits)
  let p : Half := if s.pc.toNat + 1 ≤ addrMax then s.pc else 0x200
  { s with
    pc := p
    status := .running
    mem := Memory.writeList s.cfg.font s.mem p.toNat [highByte op, lowByte op] }

end Sys2Proof.Machine
end

