-- ==== Sys2Proof/WellFormed.lean ====
section
/-! DEFINITION. Well-formedness checks.

An `Instr` needs none beyond its types: every register number, immediate, address and height its fields can
hold is legal (10_state.md R20, 30_encoding.md R81, R85). The values that do need a check come from outside
the core: the construction parameters (00_scope.md R8) and the program image (70_reset_and_hazards.md R301). -/

namespace Sys2Proof

/-- The most bytes a program image may have, `PROGRAM_MAX` (R8, R301). -/
def programMax : Nat := 3584

/-- `DISPLAY_W >= 1` and `DISPLAY_H >= 1`: the sizes `Init` accepts (44_display.md R206). -/
def Config.displayOk (c : Config) : Bool := 1 ≤ c.displayW && 1 ≤ c.displayH

/-- `STACK_LIMIT` is `none` or a natural number `L >= 1` (R8). -/
def Config.stackLimitOk (c : Config) : Bool :=
  match c.stackLimit with
  | none => true
  | some l => 1 ≤ l

/-- `SPEED >= 1` (R8). -/
def Config.speedOk (c : Config) : Bool := 1 ≤ c.speed

/-- `TONE_HZ` is a positive number (decision D22), here a whole one (log entry 27). -/
def Config.toneOk (c : Config) : Bool := 1 ≤ c.toneHz

/-- Every parameter is in the range R8 gives it. -/
def Config.wellFormed (c : Config) : Bool :=
  c.displayOk && c.stackLimitOk && c.speedOk && c.toneOk

/-- A program image fits between 0x200 and the end of memory (R301). -/
def imageFits (rom : List Byte) : Bool := rom.length ≤ programMax

/-- Every instruction term is well formed: its operand types hold exactly the values its fields encode. -/
def Instr.wellFormed (i : Instr) : Bool :=
  match i with
  | .cls | .ret | .jp _ | .call _ | .seImm _ _ | .sneImm _ _ | .seReg _ _ | .ldImm _ _ | .addImm _ _
  | .ldReg _ _ | .or _ _ | .and _ _ | .xor _ _ | .addReg _ _ | .sub _ _ | .shr _ _ | .subn _ _ | .shl _ _
  | .sneReg _ _ | .ldI _ | .jpV0 _ | .rnd _ _ | .drw _ _ _ | .skp _ | .sknp _ | .ldVxDt _ | .ldVxK _
  | .ldDtVx _ | .ldStVx _ | .addI _ | .ldF _ | .ldB _ | .ldMemVx _ | .ldVxMem _ => true

end Sys2Proof
end

