-- ==== Sys2Proof/Machine/Ports.lean ====
section
/-! DEFINITION. The host interface: construction, and the host's calls between cycles.

spec: 60_exceptions.md R283; 70_reset_and_hazards.md R300, R301; 44_display.md R204 to R206. -/

namespace Sys2Proof.Machine

/-- `Construct(rom)`: the image size is checked first, then the buffer size; then FONT, the image and the reset
values (R300, R301, R206, R44). -/
def construct (cfg : Config) (rom : List Byte) : Except CoreError State :=
  if imageFits rom then
    if cfg.displayOk then
      .ok { State.reset with
        mem := Memory.writeList cfg.font [] 0x200 rom
        disp := Display.blank cfg.displayW cfg.displayH
        cfg := cfg }
    else .error (.dimension (.init cfg.displayW cfg.displayH))
  else .error (.programTooLarge rom.length)

/-- A call the host may make on a constructed core (R283). -/
inductive HostCall where
  | cycle
  | step
  | execute (op : Half)
  | read (x y : Int)
  | set (x y : Int) (v : Bool)
deriving DecidableEq, Repr

/-- What comes back (R283). `notEnabled` is the model's answer to a call the spec does not enable. -/
inductive Reply where
  | ok
  | err (e : CoreError)
  | cell (b : Bool)
  | notEnabled
deriving DecidableEq, Repr

/-- The reply of an operation that runs instructions: `Ok`, or the error that halted the core (R269, R283). -/
def replyOf (s : State) (o : Host.Outcome State Fault Refusal) : Reply × State :=
  match o with
  | .next t =>
    match t.status with
    | .running => (.ok, t)
    | .halted e => (.err e, t)
  | .fault _ => (.notEnabled, s)
  | .refused _ => (.notEnabled, s)

/-- One host call: allowed between cycles only; Cycle, Step and Execute only while the core runs, Read and Set in any
status, and their errors do not halt the core (R204, R205, R283; log entry 24). -/
def serve (c : HostCall) (s : State) : Reply × State :=
  if s.slot = 0 then
    match c with
    | .cycle => replyOf s (Sys2Proof.Machine.cycle s)
    | .step => replyOf s (whenRunning s (stepOnce (s.setOut [])))
    | .execute op => replyOf s (whenRunning s (Sys2Proof.Machine.execute op (s.setOut [])))
    | .read x y =>
      match readPort x y s with
      | .ok b => (.cell b, s)
      | .error e => (.err e, s)
    | .set x y v =>
      match setPort x y v s with
      | .ok t => (.ok, t)
      | .error e => (.err e, s)
  else (.notEnabled, s)

end Sys2Proof.Machine
end

