-- ==== Sys2Proof/Safety.lean ====
section
/-! DEFINITION. What claims about runs are stated in: the invariants of the state, reachable states, and a good end
of a run.

spec: 60_exceptions.md R268, R284; 10_state.md R27; 20_memory.md R50. -/

namespace Sys2Proof.Machine

/-- Memory is in its canonical form and the display buffer is a grid of `H` rows by `W` columns (R32, R33). -/
def State.StorageOk (s : State) : Prop :=
  Memory.wf s.cfg.font s.mem ∧ Display.wf s.cfg.displayW s.cfg.displayH s.disp

/-- The bounds R27 and R110 derive under `Step`: pc at most 0x10FE, every return address at most 0x1000. -/
def State.PcOk (s : State) : Prop := s.pc.toNat ≤ 0x10FE ∧ ∀ a ∈ s.stack, a.toNat ≤ 0x1000

/-- The stack never exceeds a configured limit (R29, R112). -/
def State.DepthOk (s : State) : Prop := ∀ l, s.cfg.stackLimit = some l → s.stack.length ≤ l

/-- The batch position: below SPEED, and 0 once an error has ended the batch (R269). -/
def State.SlotOk (s : State) : Prop := s.slot < s.cfg.speed ∧ (s.isHalted = true → s.slot = 0)

/-- The invariant of a core that runs by `step`. -/
def State.Inv (s : State) : Prop :=
  s.cfg.wellFormed = true ∧ s.StorageOk ∧ s.PcOk ∧ s.DepthOk ∧ s.SlotOk

/-- A run of `k` steps that stops at the first step with no next state. -/
def run (k : Nat) (s : State) : Host.Outcome State Fault Refusal := Host.Core.run Sys2Proof.core k s

/-- A run ends well in `s`: at a cycle boundary, with the core running (R284). -/
def State.endsWell (s : State) : Bool := s.slot == 0 && !s.isHalted

/-- States some run reaches from a constructed core. -/
inductive Reachable : State → Prop where
  | start (cfg : Config) (rom : List Byte) (s : State) :
      cfg.wellFormed = true → construct cfg rom = .ok s → Reachable s
  | next (s t : State) : Reachable s → step s = .next t → Reachable t

/-! ## What each instruction may write -/

/-- The table of R22: the general registers an instruction writes. -/
def writesReg (i : Instr) (r : Reg) : Bool :=
  match i with
  | .ldImm x _ | .addImm x _ | .ldReg x _ | .or x _ | .and x _ | .xor x _ | .rnd x _ | .ldVxDt x => r == x
  | .addReg x _ | .sub x _ | .shr x _ | .subn x _ | .shl x _ => r == x || r == Reg.vf
  | .drw _ _ _ => r == Reg.vf
  | .ldVxMem x => decide (r ≤ x)
  | .cls | .ret | .jp _ | .call _ | .seImm _ _ | .sneImm _ _ | .seReg _ _ | .sneReg _ _ | .ldI _ | .jpV0 _
  | .skp _ | .sknp _ | .ldVxK _ | .ldDtVx _ | .ldStVx _ | .addI _ | .ldF _ | .ldB _ | .ldMemVx _ => false

/-- The table of R56: the addresses an instruction stores to, `I + k` for each of its `k`. -/
def storesAt (i : Instr) (s : State) (a : Nat) : Bool :=
  match i with
  | .ldB _ => s.ea 0 ≤ a && a ≤ s.ea 2
  | .ldMemVx x => s.ea 0 ≤ a && a ≤ s.ea x.val
  | .cls | .ret | .jp _ | .call _ | .seImm _ _ | .sneImm _ _ | .seReg _ _ | .sneReg _ _ | .ldI _ | .jpV0 _
  | .skp _ | .sknp _ | .ldVxK _ | .ldDtVx _ | .ldStVx _ | .addI _ | .ldF _ | .ldVxMem _ | .ldImm _ _
  | .addImm _ _ | .ldReg _ _ | .or _ _ | .and _ _ | .xor _ _ | .rnd _ _ | .ldVxDt _ | .addReg _ _ | .sub _ _
  | .shr _ _ | .subn _ _ | .shl _ _ | .drw _ _ _ => false

/-- The table of R27: pc after an instruction that raises nothing, from the state it starts in (pc holds `p + 2`). -/
def pcAfter (i : Instr) (s : State) : Half :=
  match i with
  | .ret => s.stack.headD s.pc
  | .jp nnn | .call nnn => BitVec.ofNat 16 nnn.toNat
  | .jpV0 nnn => BitVec.ofNat 16 (nnn.toNat + (s.reg 0).toNat)
  | .seImm x kk => if s.reg x = kk then s.pc + 2 else s.pc
  | .sneImm x kk => if s.reg x = kk then s.pc else s.pc + 2
  | .seReg x y => if s.reg x = s.reg y then s.pc + 2 else s.pc
  | .sneReg x y => if s.reg x = s.reg y then s.pc else s.pc + 2
  | .cls | .skp _ | .sknp _ | .ldVxK _ | .ldDtVx _ | .ldStVx _ | .addI _ | .ldF _ | .ldVxMem _ | .ldImm _ _
  | .addImm _ _ | .ldReg _ _ | .or _ _ | .and _ _ | .xor _ _ | .rnd _ _ | .ldVxDt _ | .addReg _ _ | .sub _ _
  | .shr _ _ | .subn _ _ | .shl _ _ | .drw _ _ _ | .ldI _ | .ldB _ | .ldMemVx _ => s.pc

/-- The word the next fetch reads, where pc is inside memory (R82). -/
def State.wordAtPc (s : State) : Half := s.byteAt s.pc.toNat ++ s.byteAt (s.pc.toNat + 1)

/-! ## A sprite's bits, numbered in drawing order: bit `k` is column `k % 8` of row `k / 8` (R209) -/

/-- Bit `k` of the sprite at I is set; the most significant bit of a byte is column 0. -/
abbrev State.spriteLit (s : State) (k : Nat) : Bool := (s.byteAt (s.i.toNat + k / 8)).getLsbD (7 - k % 8)

/-- Bit `k` can be drawn from `(x0, y0)`: its byte is in memory and, if it is set, its coordinates wrap at most once
(R51, R200, R212). -/
abbrev State.bitFits (s : State) (x0 y0 k : Nat) : Prop :=
  s.i.toNat + k / 8 ≤ 0xFFF ∧
    (s.spriteLit k = true → x0 + k % 8 < 2 * s.cfg.displayW ∧ y0 + k / 8 < 2 * s.cfg.displayH)

/-- A coordinate taken back by one dimension if it is beyond the first (R200). -/
abbrev wrapOnce (c d : Nat) : Nat := if c < d then c else c - d

/-- Bit `k` is set and falls on the cell `(cx, cy)`. -/
abbrev State.bitLands (s : State) (x0 y0 k cx cy : Nat) : Prop :=
  s.spriteLit k = true ∧ wrapOnce (x0 + k % 8) s.cfg.displayW = cx ∧ wrapOnce (y0 + k / 8) s.cfg.displayH = cy

/-- A cell as the first `count` bits of a sprite leave it: inverted by each of them that falls on it (R203, R209). On a
buffer with `W < 8` or `H < n` several bits may fall on one cell (R209). -/
def State.cellAfter (s : State) (x0 y0 cx cy : Nat) : Nat → Bool
  | 0 => s.disp.cell cx cy
  | k + 1 => if s.bitLands x0 y0 k cx cy then !s.cellAfter x0 y0 cx cy k else s.cellAfter x0 y0 cx cy k

/-- `t`'s buffer is `s`'s after the first `count` bits of a sprite (R203, R209, R213). -/
def Drawn (s t : State) (x0 y0 count : Nat) : Prop :=
  Display.wf s.cfg.displayW s.cfg.displayH t.disp ∧
    ∀ cx cy, cx < s.cfg.displayW → cy < s.cfg.displayH → t.disp.cell cx cy = s.cellAfter x0 y0 cx cy count

/-- Some toggle of a sprite erases its cell: one of the first `count` bits falls on a cell that is set when the bit is
drawn (R210). -/
def State.Erases (s : State) (x0 y0 count : Nat) : Prop :=
  ∃ k cx cy, k < count ∧ s.bitLands x0 y0 k cx cy ∧ s.cellAfter x0 y0 cx cy k = true

/-- The plain form of `Drawn` where no cell is under two bits: `t`'s buffer is `s`'s with the cells under the first
`count` sprite bits inverted (R203, R209, R213). -/
def DrawnFirst (s t : State) (x0 y0 count : Nat) : Prop :=
  Display.wf s.cfg.displayW s.cfg.displayH t.disp ∧
    ∀ cx cy, cx < s.cfg.displayW → cy < s.cfg.displayH →
      ((∃ k, k < count ∧ s.bitLands x0 y0 k cx cy) → t.disp.cell cx cy = !s.disp.cell cx cy) ∧
      ((¬ ∃ k, k < count ∧ s.bitLands x0 y0 k cx cy) → t.disp.cell cx cy = s.disp.cell cx cy)

end Sys2Proof.Machine
end

