-- ==== Sys2Proof/Certificates/Slice0/Obligations.lean ====
section
/-! DEFINITION. The statements for the provers. Each formalises rules of spec/ named in its docstring. A clause that rests
on a decision the spec marks as its own, or on a log entry of this model, says so.

A meaning runs on a state whose pc already holds `p + 2` (00_scope.md R17); an error is a next state with
`status = Halted(e)` (log entry 1). A result written as a record update of `s` is also the whole frame: every field it
does not name is unchanged. -/

open Sys2Proof
open Sys2Proof.Machine

/-! ## Encoding (30_encoding.md) -/

/-- R83, R84, R54 on written-out words: at least one of each family, and reserved words. -/
def Obligations.WordsDecodeAsWritten : Prop :=
  decodeWord 0x00E0 = .ok .cls ∧ decodeWord 0x00EE = .ok .ret ∧ decodeWord 0x1ABC = .ok (.jp 0xABC) ∧
  decodeWord 0x3342 = .ok (.seImm 3 0x42) ∧ decodeWord 0x5120 = .ok (.seReg 1 2) ∧
  decodeWord 0x812E = .ok (.shl 1 2) ∧ decodeWord 0x8F25 = .ok (.sub 15 2) ∧ decodeWord 0xA300 = .ok (.ldI 0x300) ∧
  decodeWord 0xC20F = .ok (.rnd 2 0x0F) ∧ decodeWord 0xD015 = .ok (.drw 0 1 5) ∧ decodeWord 0xE09E = .ok (.skp 0) ∧
  decodeWord 0xF165 = .ok (.ldVxMem 1) ∧ decodeWord 0x5121 = .error (.unknown 0x5121) ∧
  decodeWord 0x8008 = .error (.unknown 0x8008) ∧ decodeWord 0xE09F = .error (.unknown 0xE09F) ∧
  decode [0x12, 0x34, 0x00] = .ok (.jp 0x234, [0x00])

/-- R83: the opcode map row by row, with the fields of R81, and `Unknown` for a word of no row. -/
def Obligations.DecodeFollowsOpcodeMap : Prop :=
  ∀ op : Half,
    let x := regOf (op.extractLsb' 8 4)
    let y := regOf (op.extractLsb' 4 4)
    let n := op.extractLsb' 0 4
    let kk := op.extractLsb' 0 8
    let nnn := op.extractLsb' 0 12
    (op = 0x00E0 → decodeWord op = .ok .cls) ∧
    (op = 0x00EE → decodeWord op = .ok .ret) ∧
    (op &&& 0xF000 = 0x1000 → decodeWord op = .ok (.jp nnn)) ∧
    (op &&& 0xF000 = 0x2000 → decodeWord op = .ok (.call nnn)) ∧
    (op &&& 0xF000 = 0x3000 → decodeWord op = .ok (.seImm x kk)) ∧
    (op &&& 0xF000 = 0x4000 → decodeWord op = .ok (.sneImm x kk)) ∧
    (op &&& 0xF00F = 0x5000 → decodeWord op = .ok (.seReg x y)) ∧
    (op &&& 0xF000 = 0x6000 → decodeWord op = .ok (.ldImm x kk)) ∧
    (op &&& 0xF000 = 0x7000 → decodeWord op = .ok (.addImm x kk)) ∧
    (op &&& 0xF00F = 0x8000 → decodeWord op = .ok (.ldReg x y)) ∧
    (op &&& 0xF00F = 0x8001 → decodeWord op = .ok (.or x y)) ∧
    (op &&& 0xF00F = 0x8002 → decodeWord op = .ok (.and x y)) ∧
    (op &&& 0xF00F = 0x8003 → decodeWord op = .ok (.xor x y)) ∧
    (op &&& 0xF00F = 0x8004 → decodeWord op = .ok (.addReg x y)) ∧
    (op &&& 0xF00F = 0x8005 → decodeWord op = .ok (.sub x y)) ∧
    (op &&& 0xF00F = 0x8006 → decodeWord op = .ok (.shr x y)) ∧
    (op &&& 0xF00F = 0x8007 → decodeWord op = .ok (.subn x y)) ∧
    (op &&& 0xF00F = 0x800E → decodeWord op = .ok (.shl x y)) ∧
    (op &&& 0xF00F = 0x9000 → decodeWord op = .ok (.sneReg x y)) ∧
    (op &&& 0xF000 = 0xA000 → decodeWord op = .ok (.ldI nnn)) ∧
    (op &&& 0xF000 = 0xB000 → decodeWord op = .ok (.jpV0 nnn)) ∧
    (op &&& 0xF000 = 0xC000 → decodeWord op = .ok (.rnd x kk)) ∧
    (op &&& 0xF000 = 0xD000 → decodeWord op = .ok (.drw x y n)) ∧
    (op &&& 0xF0FF = 0xE09E → decodeWord op = .ok (.skp x)) ∧
    (op &&& 0xF0FF = 0xE0A1 → decodeWord op = .ok (.sknp x)) ∧
    (op &&& 0xF0FF = 0xF007 → decodeWord op = .ok (.ldVxDt x)) ∧
    (op &&& 0xF0FF = 0xF00A → decodeWord op = .ok (.ldVxK x)) ∧
    (op &&& 0xF0FF = 0xF015 → decodeWord op = .ok (.ldDtVx x)) ∧
    (op &&& 0xF0FF = 0xF018 → decodeWord op = .ok (.ldStVx x)) ∧
    (op &&& 0xF0FF = 0xF01E → decodeWord op = .ok (.addI x)) ∧
    (op &&& 0xF0FF = 0xF029 → decodeWord op = .ok (.ldF x)) ∧
    (op &&& 0xF0FF = 0xF033 → decodeWord op = .ok (.ldB x)) ∧
    (op &&& 0xF0FF = 0xF055 → decodeWord op = .ok (.ldMemVx x)) ∧
    (op &&& 0xF0FF = 0xF065 → decodeWord op = .ok (.ldVxMem x)) ∧
    ((∀ r ∈ opcodeRows, op &&& r.mask ≠ r.value) → decodeWord op = .error (.unknown op))

/-- R83: no two rows of the opcode map match the same word, and there are 34 rows. -/
def Obligations.OpcodeRowsNeverOverlap : Prop :=
  opcodeRows.length = 34 ∧
  ∀ (r q : OpcodeRow) (op : Half), r ∈ opcodeRows → q ∈ opcodeRows →
    op &&& r.mask = r.value → op &&& q.mask = q.value → r = q

/-- R80, R81, R83, R87: every instruction, with every operand at every value its field admits, is read back from its own
word and from its two bytes, whatever follows them. -/
def Obligations.DecodeInvertsEncode : Prop :=
  ∀ i : Instr, decodeWord (encode i) = .ok i ∧ ∀ rest, decode (encodeBytes i ++ rest) = .ok (i, rest)

/-- R83, R85: each word that decodes has one meaning: encoding it gives the word back, with the fields it ignores. -/
def Obligations.EncodeInvertsDecode : Prop :=
  ∀ (op : Half) (i : Instr), decodeWord op = .ok i → encode i = op

/-! ## The step (30_encoding.md R82, R90; 60_exceptions.md) -/

/-- R90: when the two bytes at pc are inside memory and decode to an instruction, the step is that instruction's meaning
on the state with pc advanced by 2 (and the output ports cleared), and then the end of its slot. -/
def Obligations.StepExecutesFetchedInstruction : Prop :=
  ∀ (s : State) (i : Instr), s.status = .running → s.pc.toNat ≤ 0xFFE → decodeWord s.wordAtPc = .ok i →
    step s = onNext (exec i { s with pc := s.pc + 2, out := [] }) closeSlot

/-- R82, R265, R268: a fetch above 0xFFE halts the core with the first offending address and leaves pc unchanged. The
error kind and the unchanged pc are the spec's decisions D2 and D11; that the batch position returns to 0 is log entry 23. -/
def Obligations.FetchOutsideMemoryHalts : Prop :=
  ∀ s : State, s.status = .running → 0xFFE < s.pc.toNat →
    step s = .next { s with
      status := .halted (.addressOutOfRange (if s.pc.toNat = 0xFFF then 0x1000 else s.pc.toNat)), slot := 0, out := [] }

/-- R84, R90, R261: an unknown word halts the core with the whole word, and pc holds its address plus 2. Which words
are unknown and where pc stands are the spec's decisions D10 and D11; the batch position is log entry 23. -/
def Obligations.UnknownWordHalts : Prop :=
  ∀ (s : State) (e : DecodeError), s.status = .running → s.pc.toNat ≤ 0xFFE → decodeWord s.wordAtPc = .error e →
    step s = .next { s with
      pc := s.pc + 2, status := .halted (.unknownOpcode s.wordAtPc), slot := 0, out := [] }

/-- R268, R283: a halted core has no step, and the host's Cycle, Step and Execute are not enabled. The spec's decision
D12; that the model says it with a fault is log entry 1. -/
def Obligations.HaltedCoreHasNoStep : Prop :=
  ∀ (s : State) (e : CoreError) (op : Half), s.status = .halted e →
    step s = .fault (.coreHalted e) ∧ cycle s = .fault (.coreHalted e) ∧
    serve .cycle s = (.notEnabled, s) ∧ serve .step s = (.notEnabled, s) ∧ serve (.execute op) s = (.notEnabled, s)

/-- R275, R276, R277: the tick decrements each timer by 1 if it is above 0, then commands the audio from the new ST, then
requests one render; nothing else changes. -/
def Obligations.TickDecrementsAndCommands : Prop :=
  ∀ s : State, tick s = { s with
    dt := if s.dt = 0 then 0 else s.dt - 1
    st := if s.st = 0 then 0 else s.st - 1
    out := [if s.st.toNat ≤ 1 then .stop else .play s.cfg.toneHz, .render] }

/-- R241, R242, R275, R309: after `k` ticks each timer holds its value less `k`, not below 0, and the last of them played
the tone exactly if ST was above `k`. -/
def Obligations.TimersCountDownToZero : Prop :=
  ∀ (s : State) (k : Nat),
    (tick^[k] s).dt.toNat = s.dt.toNat - k ∧ (tick^[k] s).st.toNat = s.st.toNat - k ∧
    (0 < k → (tick^[k] s).out = [if k < s.st.toNat then .play s.cfg.toneHz else .stop, .render])

/-- R269: what the end of a slot does: after an error nothing but the end of the batch, after the last of SPEED slots the
tick, after any other slot a count. That an error's batch ends with no tick, command or render is the spec's decision D12
(R269, R312); the split of a cycle into slots is log entry 2, the 0 after an error log entry 23. -/
def Obligations.SlotEndsWithTickOrCount : Prop :=
  ∀ s : State,
    ((∃ e, s.status = .halted e) → closeSlot s = { s with slot := 0 }) ∧
    (s.status = .running → s.slot + 1 < s.cfg.speed → closeSlot s = { s with slot := s.slot + 1 }) ∧
    (s.status = .running → s.cfg.speed ≤ s.slot + 1 → closeSlot s = { tick s with slot := 0 })

/-- R269, R312: the machine's steps refine the spec's Cycle. From a cycle boundary, SPEED steps of the machine reach
exactly the state of one `Cycle()` (SPEED spec steps, then the tick); and if an error ends the cycle, the machine reaches
that same halted state after at most SPEED steps and has no step after it. That an error skips the tick and that a halted
core has no step are the spec's decision D12 (the fault that says it: log entry 1); the slots are log entry 2. -/
def Obligations.CycleIsSpeedSteps : Prop :=
  ∀ s : State, s.status = .running → s.slot = 0 → 1 ≤ s.cfg.speed →
    ∃ t, cycle s = .next t ∧
      (t.status = .running → run s.cfg.speed s = .next t) ∧
      (∀ e, t.status = .halted e →
        ∃ k, 1 ≤ k ∧ k ≤ s.cfg.speed ∧ run k s = .next t ∧ ∀ n, k < n → run n s = .fault (.coreHalted e))

/-- R307, R308, R309: inside a batch a step moves no timer but by Fx15 and Fx18, and commands nothing. -/
def Obligations.BatchInsideIsQuiet : Prop :=
  ∀ s t : State, s.slot + 1 < s.cfg.speed → step s = .next t →
    t.out = [] ∧
    (t.dt ≠ s.dt → ∃ x, decodeWord s.wordAtPc = .ok (.ldDtVx x)) ∧
    (t.st ≠ s.st → ∃ x, decodeWord s.wordAtPc = .ok (.ldStVx x))

/-- R36, R91, R310: no instruction reads or writes the batch position or the output ports (fields of the model's own, log
entries 2 and 19). -/
def Obligations.InstructionsIgnoreBatchPosition : Prop :=
  ∀ (i : Instr) (s : State) (k : Nat) (o : List Output),
    exec i { s with slot := k, out := o } = onNext (exec i s) fun t => { t with slot := k, out := o }

/-- R260, R271: which instructions raise which errors, and when; no other instruction writes the status. That an address
above 0xFFF is an error is the spec's decision D2 (log entry 13), that a call at a limit is one D7 (log entry 6), and the
kind and payload of a rejected coordinate, one the single wrap does not accept, D15 (log entry 18). -/
def Obligations.OnlyListedErrorsHalt : Prop :=
  ∀ (i : Instr) (s t : State), exec i s = .next t → t.status ≠ s.status →
    (i = .ret ∧ s.stack = [] ∧ t.status = .halted .stackUnderflow) ∨
    ((∃ nnn, i = .call nnn) ∧ s.cfg.stackLimit = some s.stack.length ∧ t.status = .halted .stackOverflow) ∨
    ((∃ x, i = .ldB x ∨ i = .ldMemVx x ∨ i = .ldVxMem x) ∧
      ∃ a, 0xFFF < a ∧ t.status = .halted (.addressOutOfRange a)) ∨
    ((∃ x y n, i = .drw x y n) ∧
      ((∃ a, 0xFFF < a ∧ t.status = .halted (.addressOutOfRange a)) ∨
       (∃ c : Int, wrap1 c s.cfg.displayW = none ∧ t.status = .halted (.dimension (.x c))) ∨
       (∃ c : Int, wrap1 c s.cfg.displayH = none ∧ t.status = .halted (.dimension (.y c)))))

/-! ## Invariants (10_state.md, 20_memory.md) -/

/-- R27, R29, R33, R50, R110, R269: every step keeps memory canonical, the buffer a grid of H rows by W columns, pc at most
0x10FE and return addresses at most 0x1000, the depth within a configured limit, and the batch position below SPEED. -/
def Obligations.StepKeepsInvariants : Prop :=
  ∀ s t : State, s.Inv → step s = .next t → t.Inv

/-- The state right after reset meets the invariants (R39 to R48). -/
def Obligations.ResetMeetsInvariants : Prop := State.reset.Inv

/-- R300: every core that Construct builds from parameters in range meets the invariants. -/
def Obligations.ConstructMeetsInvariants : Prop :=
  ∀ (cfg : Config) (rom : List Byte) (s : State), cfg.wellFormed = true → construct cfg rom = .ok s → s.Inv

/-! ## Whole-machine frames: what each kind of state is written by -/

/-- R22: no instruction outside the table writes a general register, VF included; each register the table does not name
for an instruction keeps its value. -/
def Obligations.GeneralRegisterWriters : Prop :=
  ∀ (i : Instr) (s t : State) (r : Reg), exec i s = .next t → writesReg i r = false → t.reg r = s.reg r

/-- R56, R57: every byte of memory outside the addresses of R56's table reads as before; for every instruction but Fx33
and Fx55 that is all of memory. -/
def Obligations.MemoryWriters : Prop :=
  ∀ (i : Instr) (s t : State) (a : Nat), exec i s = .next t → storesAt i s a = false → t.byteAt a = s.byteAt a

/-- R24, R28, R30, R31, R33, R36: I is written only by Annn, Fx1E, Fx29; the stack only by 00EE, 2nnn; DT only by Fx15; ST
only by Fx18; the buffer only by 00E0, Dxyn; the draw count (log entry 9) only by Cxkk; the parameters, the batch position
and the output ports by no instruction. -/
def Obligations.OtherStateWriters : Prop :=
  ∀ (i : Instr) (s t : State), exec i s = .next t →
    (t.i ≠ s.i → (∃ nnn, i = .ldI nnn) ∨ (∃ x, i = .addI x) ∨ (∃ x, i = .ldF x)) ∧
    (t.stack ≠ s.stack → i = .ret ∨ ∃ nnn, i = .call nnn) ∧
    (t.dt ≠ s.dt → ∃ x, i = .ldDtVx x) ∧
    (t.st ≠ s.st → ∃ x, i = .ldStVx x) ∧
    (t.disp ≠ s.disp → i = .cls ∨ ∃ x y n, i = .drw x y n) ∧
    (t.draws ≠ s.draws → ∃ x kk, i = .rnd x kk) ∧
    t.cfg = s.cfg ∧ t.slot = s.slot ∧ t.out = s.out

/-- R27, R118, R119: how each instruction leaves pc when it raises nothing; an instruction that raises an error leaves
`p + 2` (the spec's decision D11). -/
def Obligations.PcAfterEachInstruction : Prop :=
  ∀ (i : Instr) (s t : State), s.status = .running → exec i s = .next t →
    (t.status = .running → t.pc = pcAfter i s) ∧ (t.status ≠ .running → t.pc = s.pc)

/-! ## Control flow (41_control_flow.md) -/

/-- R110, R262: RET pops the return address; on an empty stack it halts with StackUnderflow and changes nothing else (pc
keeps `p + 2`, the spec's decision D11). -/
def Obligations.ReturnPopsOrUnderflows : Prop :=
  ∀ s : State,
    (∀ a rest, s.stack = a :: rest → exec .ret s = .next { s with pc := a, stack := rest }) ∧
    (s.stack = [] → exec .ret s = .next { s with status := .halted .stackUnderflow })

/-- R112, R263: CALL pushes the already-advanced pc and jumps; at a configured limit it halts with StackOverflow and
changes nothing else (the spec's decision D7). -/
def Obligations.CallPushesOrOverflows : Prop :=
  ∀ (s : State) (nnn : BitVec 12),
    (s.cfg.stackLimit ≠ some s.stack.length →
      exec (.call nnn) s = .next { s with pc := BitVec.ofNat 16 nnn.toNat, stack := s.pc :: s.stack }) ∧
    (s.cfg.stackLimit = some s.stack.length →
      exec (.call nnn) s = .next { s with status := .halted .stackOverflow })

/-- R110, R112, R120: a RET after a CALL, from whatever pc, restores the caller's pc and stack and all other state. -/
def Obligations.CallThenReturnRestores : Prop :=
  ∀ (s : State) (nnn : BitVec 12) (q : Half), s.cfg.stackLimit ≠ some s.stack.length →
    ∃ t, exec (.call nnn) s = .next t ∧ t.stack.length = s.stack.length + 1 ∧
      exec .ret { t with pc := q } = .next s

/-- R111: JP sets pc to its 12-bit operand; nothing else changes. -/
def Obligations.JumpTakesOperand : Prop :=
  ∀ (s : State) (nnn : BitVec 12),
    decodeWord (0x1#4 ++ nnn) = .ok (.jp nnn) ∧
    exec (.jp nnn) s = .next { s with pc := BitVec.ofNat 16 nnn.toNat }

/-- R117: JP V0 sets pc to the untruncated sum of its operand and V0 (not masked to 12 bits: the spec's decision D1);
nothing else changes. -/
def Obligations.IndexedJumpAddsV0 : Prop :=
  ∀ (s : State) (nnn : BitVec 12),
    ∃ t, exec (.jpV0 nnn) s = .next t ∧ t = { s with pc := t.pc } ∧ t.pc.toNat = nnn.toNat + (s.reg 0).toNat

/-- R113, R114: the immediate skips add 2 to pc exactly when the register equals, or does not equal, the immediate. -/
def Obligations.SkipsOnImmediate : Prop :=
  ∀ (s : State) (x : Reg) (kk : Byte),
    decodeWord (0x3#4 ++ BitVec.ofNat 4 x.val ++ kk) = .ok (.seImm x kk) ∧
    decodeWord (0x4#4 ++ BitVec.ofNat 4 x.val ++ kk) = .ok (.sneImm x kk) ∧
    exec (.seImm x kk) s = .next (if s.reg x = kk then { s with pc := s.pc + 2 } else s) ∧
    exec (.sneImm x kk) s = .next (if s.reg x ≠ kk then { s with pc := s.pc + 2 } else s)

/-- R115, R116: the register skips add 2 to pc exactly when the registers are equal, or differ; with any other low nibble
the word is `Unknown`. -/
def Obligations.SkipsOnRegisters : Prop :=
  ∀ (s : State) (x y : Reg),
    decodeWord (0x5#4 ++ BitVec.ofNat 4 x.val ++ BitVec.ofNat 4 y.val ++ 0x0#4) = .ok (.seReg x y) ∧
    decodeWord (0x9#4 ++ BitVec.ofNat 4 x.val ++ BitVec.ofNat 4 y.val ++ 0x0#4) = .ok (.sneReg x y) ∧
    (∀ n : BitVec 4, n ≠ 0 →
      decodeWord (0x5#4 ++ BitVec.ofNat 4 x.val ++ BitVec.ofNat 4 y.val ++ n) =
        .error (.unknown (0x5#4 ++ BitVec.ofNat 4 x.val ++ BitVec.ofNat 4 y.val ++ n)) ∧
      decodeWord (0x9#4 ++ BitVec.ofNat 4 x.val ++ BitVec.ofNat 4 y.val ++ n) =
        .error (.unknown (0x9#4 ++ BitVec.ofNat 4 x.val ++ BitVec.ofNat 4 y.val ++ n))) ∧
    exec (.seReg x y) s = .next (if s.reg x = s.reg y then { s with pc := s.pc + 2 } else s) ∧
    exec (.sneReg x y) s = .next (if s.reg x ≠ s.reg y then { s with pc := s.pc + 2 } else s)

/-- R118: through the step, from the instruction's own address `p`: a skip whose condition holds leaves pc at `p + 4`
whatever word stands at `p + 2`, and one whose condition fails at `p + 2`. -/
def Obligations.SkipDistanceIsFour : Prop :=
  ∀ (s : State) (x y : Reg) (kk : Byte), s.status = .running → s.pc.toNat ≤ 0xFFE →
    (decodeWord s.wordAtPc = .ok (.seImm x kk) →
      ∃ t, step s = .next t ∧ t.status = .running ∧ t.pc.toNat = s.pc.toNat + if s.reg x = kk then 4 else 2) ∧
    (decodeWord s.wordAtPc = .ok (.sneImm x kk) →
      ∃ t, step s = .next t ∧ t.status = .running ∧ t.pc.toNat = s.pc.toNat + if s.reg x = kk then 2 else 4) ∧
    (decodeWord s.wordAtPc = .ok (.seReg x y) →
      ∃ t, step s = .next t ∧ t.status = .running ∧ t.pc.toNat = s.pc.toNat + if s.reg x = s.reg y then 4 else 2) ∧
    (decodeWord s.wordAtPc = .ok (.sneReg x y) →
      ∃ t, step s = .next t ∧ t.status = .running ∧ t.pc.toNat = s.pc.toNat + if s.reg x = s.reg y then 2 else 4)

/-! ## Arithmetic and logic (42_alu.md) -/

/-- R140, R142: the register loads write Vx and nothing else. -/
def Obligations.LoadsWriteDestination : Prop :=
  ∀ (s : State) (x y : Reg) (kk : Byte),
    decodeWord (0x6#4 ++ BitVec.ofNat 4 x.val ++ kk) = .ok (.ldImm x kk) ∧
    decodeWord (0x8#4 ++ BitVec.ofNat 4 x.val ++ BitVec.ofNat 4 y.val ++ 0x0#4) = .ok (.ldReg x y) ∧
    exec (.ldImm x kk) s = .next { s with v := s.v.set x.val kk } ∧
    exec (.ldReg x y) s = .next { s with v := s.v.set x.val s.v[y.val] }

/-- R141: ADD Vx, kk writes the sum mod 256 to Vx; VF is written only as its destination, and nothing else changes. -/
def Obligations.AddImmediateWrapsNoFlag : Prop :=
  ∀ (s : State) (x : Reg) (kk : Byte),
    decodeWord (0x7#4 ++ BitVec.ofNat 4 x.val ++ kk) = .ok (.addImm x kk) ∧
    exec (.addImm x kk) s =
      .next { s with v := s.v.set x.val (BitVec.ofNat 8 ((s.reg x).toNat + kk.toNat)) }

/-- R143, R144, R145: OR, AND and XOR write Vx bit by bit and nothing else, VF included. -/
def Obligations.LogicWritesDestination : Prop :=
  ∀ (s : State) (x y : Reg),
    decodeWord (0x8#4 ++ BitVec.ofNat 4 x.val ++ BitVec.ofNat 4 y.val ++ 0x1#4) = .ok (.or x y) ∧
    decodeWord (0x8#4 ++ BitVec.ofNat 4 x.val ++ BitVec.ofNat 4 y.val ++ 0x2#4) = .ok (.and x y) ∧
    decodeWord (0x8#4 ++ BitVec.ofNat 4 x.val ++ BitVec.ofNat 4 y.val ++ 0x3#4) = .ok (.xor x y) ∧
    exec (.or x y) s = .next { s with v := s.v.set x.val (s.v[x.val] ||| s.v[y.val]) } ∧
    exec (.and x y) s = .next { s with v := s.v.set x.val (s.v[x.val] &&& s.v[y.val]) } ∧
    exec (.xor x y) s = .next { s with v := s.v.set x.val (s.v[x.val] ^^^ s.v[y.val]) }

/-- R146, R152, R153: ADD Vx, Vy, for every choice of x and y. Vx ends as the sum mod 256 of the values before; VF ends as
the carry unless it is the destination, where the sum wins (the write order for VF is the spec's decision D9). -/
def Obligations.AddSetsCarry : Prop :=
  ∀ (s : State) (x y : Reg),
    let sum := (s.reg x).toNat + (s.reg y).toNat
    ∃ t, exec (.addReg x y) s = .next t ∧ t = { s with v := t.v } ∧
      (t.reg x).toNat = sum % 256 ∧
      (x ≠ 15 → t.reg 15 = if sum > 255 then 1 else 0) ∧
      (∀ r, r ≠ x → r ≠ 15 → t.reg r = s.reg r)

/-- R147, R152, R153: SUB Vx, Vy for every choice of x and y, with the strict flag; the results where x or y is VF follow
the spec's decision D9. -/
def Obligations.SubtractSetsStrictFlag : Prop :=
  ∀ (s : State) (x y : Reg),
    let a := (s.reg x).toNat
    let b := (s.reg y).toNat
    let f := if a > b then 1 else 0
    ∃ t, exec (.sub x y) s = .next t ∧ t = { s with v := t.v } ∧
      (∀ r, r ≠ x → r ≠ 15 → t.reg r = s.reg r) ∧
      (x ≠ 15 → (t.reg 15).toNat = f) ∧
      (x ≠ 15 → y ≠ 15 → (t.reg x).toNat = (256 + a - b) % 256) ∧
      (x ≠ 15 → y = 15 → (t.reg x).toNat = (256 + a - f) % 256) ∧
      (x = 15 → y ≠ 15 → (t.reg x).toNat = (256 + f - b) % 256) ∧
      (x = 15 → y = 15 → (t.reg x).toNat = 0)

/-- R149, R152, R153: SUBN Vx, Vy for every choice of x and y, with the strict flag; the results where x or y is VF follow
the spec's decision D9. -/
def Obligations.ReverseSubtractSetsStrictFlag : Prop :=
  ∀ (s : State) (x y : Reg),
    let a := (s.reg x).toNat
    let b := (s.reg y).toNat
    let f := if b > a then 1 else 0
    ∃ t, exec (.subn x y) s = .next t ∧ t = { s with v := t.v } ∧
      (∀ r, r ≠ x → r ≠ 15 → t.reg r = s.reg r) ∧
      (x ≠ 15 → (t.reg 15).toNat = f) ∧
      (x ≠ 15 → y ≠ 15 → (t.reg x).toNat = (256 + b - a) % 256) ∧
      (x ≠ 15 → y = 15 → (t.reg x).toNat = (256 + f - a) % 256) ∧
      (x = 15 → y ≠ 15 → (t.reg x).toNat = (256 + b - f) % 256) ∧
      (x = 15 → y = 15 → (t.reg x).toNat = 0)

/-- R148, R150, R152, R153: the shifts act on Vx alone, for every y; VF gets the bit shifted out unless it is the
destination, where 8Fy6 leaves 0 and 8FyE leaves 2 or 0 (the spec's decision D9). -/
def Obligations.ShiftsMoveOneBitOut : Prop :=
  ∀ (s : State) (x y : Reg),
    let a := (s.reg x).toNat
    (∃ t, exec (.shr x y) s = .next t ∧ t = { s with v := t.v } ∧
      (∀ r, r ≠ x → r ≠ 15 → t.reg r = s.reg r) ∧
      (x ≠ 15 → (t.reg x).toNat = a / 2 ∧ (t.reg 15).toNat = a % 2) ∧
      (x = 15 → (t.reg 15).toNat = 0)) ∧
    (∃ t, exec (.shl x y) s = .next t ∧ t = { s with v := t.v } ∧
      (∀ r, r ≠ x → r ≠ 15 → t.reg r = s.reg r) ∧
      (x ≠ 15 → (t.reg x).toNat = 2 * a % 256 ∧ (t.reg 15).toNat = a / 128) ∧
      (x = 15 → (t.reg 15).toNat = 2 * (a / 128)))

/-- R151: RND writes a draw masked by the immediate to Vx and takes one draw; the draw is a free value (log entry 9), and a
zero mask gives 0 under every draw. -/
def Obligations.RandomByteIsMasked : Prop :=
  ∀ (s : State) (x : Reg) (kk : Byte),
    exec (.rnd x kk) s =
      .next { s with v := s.v.set x.val (Config.randomByte s.draws &&& kk), draws := s.draws + 1 } ∧
    exec (.rnd x 0) s = .next { s with v := s.v.set x.val 0, draws := s.draws + 1 }

/-! ## Index register and memory (43_index_memory.md, 20_memory.md) -/

/-- R180, R181, R182: what Annn, Fx1E and Fx29 write to I; no flag and nothing else changes. -/
def Obligations.IndexRegisterResults : Prop :=
  ∀ (s : State) (nnn : BitVec 12) (x : Reg),
    decodeWord (0xA#4 ++ nnn) = .ok (.ldI nnn) ∧
    decodeWord (0xF#4 ++ BitVec.ofNat 4 x.val ++ 0x1E#8) = .ok (.addI x) ∧
    decodeWord (0xF#4 ++ BitVec.ofNat 4 x.val ++ 0x29#8) = .ok (.ldF x) ∧
    exec (.ldI nnn) s = .next { s with i := BitVec.ofNat 16 nnn.toNat } ∧
    exec (.addI x) s = .next { s with i := BitVec.ofNat 16 ((s.i.toNat + (s.reg x).toNat) % 65536) } ∧
    exec (.ldF x) s = .next { s with i := BitVec.ofNat 16 ((s.reg x).toNat * 5) }

/-- R51, R52, R57, R265: a store inside memory is what is read back, leaves every other byte and all other state, and
keeps the canonical form; a read has no effect; an access above 0xFFF raises its address (the spec's decision D2). -/
def Obligations.MemoryReadsLatestWrite : Prop :=
  ∀ (s : State) (a : Nat) (b : Byte),
    (a ≤ 0xFFF → memRead a s = .go (s.byteAt a) s ∧
      ∃ t, memWrite a b s = .go () t ∧ t = { s with mem := t.mem } ∧ t.byteAt a = b ∧
        (∀ c, c ≠ a → t.byteAt c = s.byteAt c) ∧
        (Memory.wf s.cfg.font s.mem → Memory.wf t.cfg.font t.mem)) ∧
    (0xFFF < a → memRead a s = .stop (.addressOutOfRange a) s ∧ memWrite a b s = .stop (.addressOutOfRange a) s)

/-- R183: Fx33 inside memory stores the hundreds, tens and units of Vx at I, I + 1, I + 2 and changes nothing else. -/
def Obligations.DecimalDigitsStored : Prop :=
  ∀ (s : State) (x : Reg), s.i.toNat + 2 ≤ 0xFFF →
    ∃ t, exec (.ldB x) s = .next t ∧ t = { s with mem := t.mem } ∧
      (t.byteAt s.i.toNat).toNat = (s.reg x).toNat / 100 ∧
      (t.byteAt (s.i.toNat + 1)).toNat = (s.reg x).toNat / 10 % 10 ∧
      (t.byteAt (s.i.toNat + 2)).toNat = (s.reg x).toNat % 10 ∧
      (∀ a, a < s.i.toNat ∨ s.i.toNat + 2 < a → t.byteAt a = s.byteAt a)

/-- R183, R267: Fx33 that leaves memory halts with the first address above 0xFFF; the digits before it stand and nothing
else changes (ascending order is the spec's decision D17, the fault D2). -/
def Obligations.DecimalDigitsPartWay : Prop :=
  ∀ (s : State) (x : Reg), 0xFFF < s.i.toNat + 2 →
    ∃ t, exec (.ldB x) s = .next t ∧ t = { s with mem := t.mem, status := t.status } ∧
      t.status = .halted (.addressOutOfRange (max s.i.toNat 0x1000)) ∧
      (s.i.toNat ≤ 0xFFF → (t.byteAt s.i.toNat).toNat = (s.reg x).toNat / 100) ∧
      (s.i.toNat + 1 ≤ 0xFFF → (t.byteAt (s.i.toNat + 1)).toNat = (s.reg x).toNat / 10 % 10) ∧
      (∀ a, a < s.i.toNat ∨ 0xFFF < a → t.byteAt a = s.byteAt a)

/-- R184: Fx55 inside memory stores V0..Vx at I..I+x; I and everything else are unchanged. -/
def Obligations.RegistersStored : Prop :=
  ∀ (s : State) (x : Reg), s.i.toNat + x.val ≤ 0xFFF →
    ∃ t, exec (.ldMemVx x) s = .next t ∧ t = { s with mem := t.mem } ∧
      (∀ k : Reg, k ≤ x → t.byteAt (s.i.toNat + k.val) = s.reg k) ∧
      (∀ a, a < s.i.toNat ∨ s.i.toNat + x.val < a → t.byteAt a = s.byteAt a)

/-- R184, R267: Fx55 that leaves memory halts with the first address above 0xFFF; the registers stored before it stand
(the spec's decisions D2 and D17). -/
def Obligations.RegistersStoredPartWay : Prop :=
  ∀ (s : State) (x : Reg), 0xFFF < s.i.toNat + x.val →
    ∃ t, exec (.ldMemVx x) s = .next t ∧ t = { s with mem := t.mem, status := t.status } ∧
      t.status = .halted (.addressOutOfRange (max s.i.toNat 0x1000)) ∧
      (∀ k : Reg, s.i.toNat + k.val ≤ 0xFFF → t.byteAt (s.i.toNat + k.val) = s.reg k) ∧
      (∀ a, a < s.i.toNat ∨ 0xFFF < a → t.byteAt a = s.byteAt a)

/-- R185: Fx65 inside memory loads V0..Vx from I..I+x; I, the other registers and everything else are unchanged. -/
def Obligations.RegistersLoaded : Prop :=
  ∀ (s : State) (x : Reg), s.i.toNat + x.val ≤ 0xFFF →
    ∃ t, exec (.ldVxMem x) s = .next t ∧ t = { s with v := t.v } ∧
      (∀ k : Reg, k ≤ x → t.reg k = s.byteAt (s.i.toNat + k.val)) ∧
      (∀ k : Reg, x < k → t.reg k = s.reg k)

/-- R185, R267: Fx65 that leaves memory halts with the first address above 0xFFF; the registers loaded before it keep
their new values and the others their old (the spec's decisions D2 and D17). -/
def Obligations.RegistersLoadedPartWay : Prop :=
  ∀ (s : State) (x : Reg), 0xFFF < s.i.toNat + x.val →
    ∃ t, exec (.ldVxMem x) s = .next t ∧ t = { s with v := t.v, status := t.status } ∧
      t.status = .halted (.addressOutOfRange (max s.i.toNat 0x1000)) ∧
      (∀ k : Reg, s.i.toNat + k.val ≤ 0xFFF → t.reg k = s.byteAt (s.i.toNat + k.val)) ∧
      (∀ k : Reg, 0xFFF < s.i.toNat + k.val → t.reg k = s.reg k)

/-- R54, R64: two registers stored by Fx55 are the next word fetched at that address, the first of them the high byte (no
flush is needed: the spec's decision D25). -/
def Obligations.StoreIsSeenByFetch : Prop :=
  ∀ (s : State) (x : Reg), 1 ≤ x.val → s.i.toNat + x.val ≤ 0xFFF →
    ∃ t, exec (.ldMemVx x) s = .next t ∧
      fetch { t with pc := s.i } = .go (s.reg 0 ++ s.reg 1) { t with pc := s.i }

/-! ## Display (44_display.md) -/

/-- R202: clearing sets every cell to false, so every cell reads as unset; through 00E0 (R208) nothing else changes. -/
def Obligations.ClearUnsetsEveryCell : Prop :=
  ∀ s : State,
    exec .cls s = .next { s with disp := List.replicate s.cfg.displayH (List.replicate s.cfg.displayW false) } ∧
    ∀ t cx cy, exec .cls s = .next t → t.disp.cell cx cy = false

/-- R200: the single wrap succeeds exactly on `-d <= c < 2d`, with the coordinate moved by at most one dimension. -/
def Obligations.SingleWrapAcceptsOneDimension : Prop :=
  ∀ (c : Int) (d : Nat), 1 ≤ d →
    (0 ≤ c → c < d → wrap1 c d = some c.toNat) ∧
    (d ≤ c → c < 2 * d → wrap1 c d = some (c - d).toNat) ∧
    (-d ≤ c → c < 0 → wrap1 c d = some (c + d).toNat) ∧
    (c < -d ∨ 2 * d ≤ c → wrap1 c d = none)

/-- R203: a toggle inverts exactly the cell its coordinates wrap to and answers whether it was set; a rejected column, else
a rejected row, is raised and changes nothing (the order and the payload are the spec's decision D15). -/
def Obligations.ToggleInvertsOneCell : Prop :=
  ∀ (x y : Int) (s : State), Display.wf s.cfg.displayW s.cfg.displayH s.disp →
    (wrap1 x s.cfg.displayW = none → toggle x y s = .stop (.dimension (.x x)) s) ∧
    (wrap1 x s.cfg.displayW ≠ none → wrap1 y s.cfg.displayH = none →
      toggle x y s = .stop (.dimension (.y y)) s) ∧
    (∀ cx cy, wrap1 x s.cfg.displayW = some cx → wrap1 y s.cfg.displayH = some cy →
      ∃ t, toggle x y s = .go (s.disp.cell cx cy) t ∧ t = { s with disp := t.disp } ∧
        Display.wf s.cfg.displayW s.cfg.displayH t.disp ∧
        ∀ ax ay, t.disp.cell ax ay = if ax = cx ∧ ay = cy then !s.disp.cell cx cy else s.disp.cell ax ay)

/-- R209, R210, R200: a draw all of whose bits can be drawn inverts a cell once for each set sprite bit that falls on it,
and writes VF = 1 if a bit falls on a cell that is set when the bit is drawn, else 0; nothing else changes. For every buffer
size. On a buffer on which no sprite covers a cell twice (`W >= 8`, `H >= n`; this hardware's 64 x 32 is one, log entry 8)
that is: exactly the cells under the set bits are inverted, and VF = 1 if one of them was lit. The coordinates are those
before the instruction, also when x or y is VF (the spec's decision D9). -/
def Obligations.DrawInvertsSpriteCells : Prop :=
  ∀ (s : State) (x y : Reg) (n : BitVec 4),
    let x0 := (s.reg x).toNat
    let y0 := (s.reg y).toNat
    let count := 8 * n.toNat
    Display.wf s.cfg.displayW s.cfg.displayH s.disp → (∀ k, k < count → s.bitFits x0 y0 k) →
    ∃ t, exec (.drw x y n) s = .next t ∧ t = { s with v := t.v, disp := t.disp } ∧
      (∀ r, r ≠ 15 → t.reg r = s.reg r) ∧
      Drawn s t x0 y0 count ∧
      (s.Erases x0 y0 count → t.reg 15 = 1) ∧
      (¬ s.Erases x0 y0 count → t.reg 15 = 0) ∧
      (8 ≤ s.cfg.displayW → n.toNat ≤ s.cfg.displayH →
        DrawnFirst s t x0 y0 count ∧
        ((∃ k cx cy, k < count ∧ s.bitLands x0 y0 k cx cy ∧ s.disp.cell cx cy = true) → t.reg 15 = 1) ∧
        ((¬ ∃ k cx cy, k < count ∧ s.bitLands x0 y0 k cx cy ∧ s.disp.cell cx cy = true) → t.reg 15 = 0))

/-- R209, R212, R213, R271: a draw halts at the first bit that cannot be drawn, with the byte's address, else the column,
else the row; the bits before it stand, no later one is drawn, and VF and everything else are unchanged (the spec's
decisions D2, D15 and D16). For every buffer size; the plain form is for a buffer on which no sprite covers a cell twice
(log entry 8). -/
def Obligations.DrawStopsAtFirstBadBit : Prop :=
  ∀ (s : State) (x y : Reg) (n : BitVec 4) (bad : Nat),
    let x0 := (s.reg x).toNat
    let y0 := (s.reg y).toNat
    Display.wf s.cfg.displayW s.cfg.displayH s.disp →
    bad < 8 * n.toNat → (∀ k, k < bad → s.bitFits x0 y0 k) → ¬ s.bitFits x0 y0 bad →
    ∃ t, exec (.drw x y n) s = .next t ∧ t = { s with disp := t.disp, status := t.status } ∧
      Drawn s t x0 y0 bad ∧
      (8 ≤ s.cfg.displayW → n.toNat ≤ s.cfg.displayH → DrawnFirst s t x0 y0 bad) ∧
      t.status = .halted
        (if 0xFFF < s.i.toNat + bad / 8 then .addressOutOfRange (s.i.toNat + bad / 8)
         else if 2 * s.cfg.displayW ≤ x0 + bad % 8 then .dimension (.x (x0 + bad % 8 : Nat))
         else .dimension (.y (y0 + bad / 8 : Nat)))

/-- R211: a sprite of height 0 writes VF = 0 and does nothing else, in every state. -/
def Obligations.DrawHeightZeroClearsFlag : Prop :=
  ∀ (s : State) (x y : Reg), exec (.drw x y 0) s = .next { s with v := s.v.set 15 0 }

/-! ## Timers and keys (45_timers_keys.md) -/

/-- R240, R241, R242: the three timer transfers move one byte and change nothing else. -/
def Obligations.TimerTransfers : Prop :=
  ∀ (s : State) (x : Reg),
    exec (.ldVxDt x) s = .next { s with v := s.v.set x.val s.dt } ∧
    exec (.ldDtVx x) s = .next { s with dt := s.v[x.val] } ∧
    exec (.ldStVx x) s = .next { s with st := s.v[x.val] }

/-- R243, R244, R245, R246: the key instructions run and change nothing (the spec's decision D13: deliberate no-ops). -/
def Obligations.KeyInstructionsDoNothing : Prop :=
  ∀ (s : State) (x : Reg),
    exec (.skp x) s = .next s ∧ exec (.sknp x) s = .next s ∧ exec (.ldVxK x) s = .next s

/-! ## Reset and the host interface (70_reset_and_hazards.md, 60_exceptions.md R283) -/

/-- R39 to R48: the values right after construction with an empty image. pc is the source's own value; the others are the
spec's decisions D4 to D8 and D12, the parameters log entries 3 to 8. -/
def Obligations.ResetValues : Prop :=
  State.reset.pc = 0x200 ∧ State.reset.i = 0 ∧ (∀ r, State.reset.reg r = 0) ∧ State.reset.stack = [] ∧
  State.reset.dt = 0 ∧ State.reset.st = 0 ∧ State.reset.status = .running ∧
  (∀ a, State.reset.byteAt a = if h : a < 80 then State.reset.cfg.font[a] else 0) ∧
  (∀ cx cy, State.reset.disp.cell cx cy = false) ∧
  construct Config.baseline [] = .ok State.reset

/-- R300, R301, R206, R44: Construct accepts every image of at most 3584 bytes on a buffer of at least one cell and places
FONT and the image, with 0 elsewhere; a longer image, else a bad size, is refused (the spec's decisions D4 to D8, D14, D18). -/
def Obligations.ConstructPlacesImage : Prop :=
  ∀ (cfg : Config) (rom : List Byte),
    (rom.length ≤ 3584 → 1 ≤ cfg.displayW → 1 ≤ cfg.displayH →
      ∃ s, construct cfg rom = .ok s ∧
        s = { State.reset with mem := s.mem, disp := s.disp, cfg := cfg } ∧
        Display.wf cfg.displayW cfg.displayH s.disp ∧ (∀ cx cy, s.disp.cell cx cy = false) ∧
        (∀ a (h : a < 80), s.byteAt a = cfg.font[a]) ∧
        (∀ k (h : k < rom.length), s.byteAt (0x200 + k) = rom[k]) ∧
        (∀ a, 80 ≤ a → a < 0x200 ∨ 0x200 + rom.length ≤ a → s.byteAt a = 0)) ∧
    (3584 < rom.length → construct cfg rom = .error (.programTooLarge rom.length)) ∧
    (rom.length ≤ 3584 → cfg.displayW = 0 ∨ cfg.displayH = 0 →
      construct cfg rom = .error (.dimension (.init cfg.displayW cfg.displayH)))

/-- R201, R204, R205, R283: between cycles, in any status, the host's Read and Set reach exactly the cells strictly inside
the buffer; a coordinate outside is returned as an error, the column first, and changes nothing (the spec's decisions D15
and D28). -/
def Obligations.HostPortsAreStrict : Prop :=
  ∀ (s : State) (x y : Int) (v : Bool), s.slot = 0 →
    (0 ≤ x → x < s.cfg.displayW → 0 ≤ y → y < s.cfg.displayH →
      serve (.read x y) s = (.cell (s.disp.cell x.toNat y.toNat), s) ∧
      ∃ t, serve (.set x y v) s = (.ok, t) ∧ t = { s with disp := t.disp } ∧
        (Display.wf s.cfg.displayW s.cfg.displayH s.disp → ∀ ax ay,
          t.disp.cell ax ay = if ax = x.toNat ∧ ay = y.toNat then v else s.disp.cell ax ay)) ∧
    (x < 0 ∨ s.cfg.displayW ≤ x →
      serve (.read x y) s = (.err (.dimension (.x x)), s) ∧ serve (.set x y v) s = (.err (.dimension (.x x)), s)) ∧
    (0 ≤ x → x < s.cfg.displayW → y < 0 ∨ s.cfg.displayH ≤ y →
      serve (.read x y) s = (.err (.dimension (.y y)), s) ∧ serve (.set x y v) s = (.err (.dimension (.y y)), s))

/-- R214, R268, R283: the host has no move inside a batch; between cycles its Cycle, Step and Execute run on a running core
and answer Ok, or the error that halted it, with no tick after a Step or an Execute (the spec's decision D28, log entry 24). -/
def Obligations.HostCallsBetweenCycles : Prop :=
  ∀ (s : State) (c : HostCall),
    (s.slot ≠ 0 → serve c s = (.notEnabled, s)) ∧
    (s.slot = 0 → s.status = .running → ∀ op,
      (∃ t, cycle s = .next t ∧
        serve .cycle s = (match t.status with | .running => .ok | .halted e => .err e, t)) ∧
      (∃ t, stepOnce { s with out := [] } = .next t ∧ t.slot = 0 ∧ t.out = [] ∧
        serve .step s = (match t.status with | .running => .ok | .halted e => .err e, t)) ∧
      (∃ t, execute op { s with out := [] } = .next t ∧ t.slot = 0 ∧ t.out = [] ∧
        serve (.execute op) s = (match t.status with | .running => .ok | .halted e => .err e, t)))
end

