-- ==== Sys2Proof/Laws/Memory.lean ====
section
/-! SUPPORT. Memory: a read after a write gives the value written, a write leaves every other address alone, and every
operation keeps the canonical form (20_memory.md R50 to R52). -/

namespace Sys2Proof.Machine

variable (font : Vector Byte 80)

/-! ## Reading what is listed -/

theorem Memory.lookup_list (a c : Nat) (b : Byte) (m : Memory) :
    Memory.lookup c (Memory.list a b m) = if c = a then some b else Memory.lookup c m := by
  induction m with
  | nil => by_cases h : a = c <;> simp [Memory.list, Memory.lookup, h, eq_comm]
  | cons hd tl ih =>
    obtain ⟨k, d⟩ := hd
    by_cases hk : k = a
    · subst hk
      by_cases h : k = c
      · simp [Memory.list, Memory.lookup, h]
      · simp [Memory.list, Memory.lookup, h, Ne.symm h]
    · by_cases hlt : a < k
      · by_cases h : a = c
        · subst h; simp [Memory.list, Memory.lookup, hk, hlt]
        · simp [Memory.list, Memory.lookup, hk, hlt, h, Ne.symm h]
      · by_cases h : k = c
        · subst h; simp [Memory.list, Memory.lookup, hk, hlt]
        · simp [Memory.list, Memory.lookup, hk, hlt, h, ih]

theorem Memory.lookup_unlist (a c : Nat) (m : Memory) :
    Memory.lookup c (Memory.unlist a m) = if c = a then none else Memory.lookup c m := by
  induction m with
  | nil => simp [Memory.unlist, Memory.lookup]
  | cons hd tl ih =>
    obtain ⟨k, d⟩ := hd
    by_cases hk : k = a
    · subst hk
      by_cases h : k = c
      · subst h; simp [Memory.unlist, ih]
      · simp [Memory.unlist, Memory.lookup, ih, h]
    · by_cases h : k = c
      · subst h; simp [Memory.unlist, Memory.lookup, hk]
      · simp [Memory.unlist, Memory.lookup, hk, h, ih]

/-- A read after a write: the byte written at its address, the old byte everywhere else (R51, R52, R57). -/
theorem Memory.read_write (m : Memory) (a c : Nat) (b : Byte) :
    Memory.read font (Memory.write font m a b) c = if c = a then b else Memory.read font m c := by
  unfold Memory.read Memory.write
  split
  · rw [Memory.lookup_unlist]
    by_cases h : c = a
    · subst h; simp_all
    · simp [h]
  · rw [Memory.lookup_list]
    by_cases h : c = a <;> simp [h]

@[simp] theorem Memory.read_nil (a : Nat) : Memory.read font [] a = Memory.resetByte font a := rfl

/-- Bytes stored from an address upwards: each at its place, everything else as before. -/
theorem Memory.read_writeList (bs : List Byte) (m : Memory) (a c : Nat) :
    Memory.read font (Memory.writeList font m a bs) c =
      if a ≤ c then (bs[c - a]?).getD (Memory.read font m c) else Memory.read font m c := by
  induction bs generalizing m a with
  | nil => simp [Memory.writeList]
  | cons b bs ih =>
    rw [Memory.writeList, ih, Memory.read_write]
    by_cases h1 : a + 1 ≤ c
    · have e : c - a = (c - (a + 1)) + 1 := by omega
      have h2 : c ≠ a := by omega
      have h3 : a ≤ c := by omega
      simp [h1, h2, h3, e]
    · by_cases h2 : c = a
      · subst h2; simp
      · have h3 : ¬ a ≤ c := by omega
        simp [h1, h2, h3]

/-! ## The canonical form -/

theorem Memory.mem_unlist {a : Nat} {m : Memory} {c : Host.Cell} (h : c ∈ Memory.unlist a m) : c ∈ m := by
  induction m with
  | nil => simp [Memory.unlist] at h
  | cons hd tl ih =>
    obtain ⟨k, d⟩ := hd
    by_cases hk : k = a
    · simp [Memory.unlist, hk] at h; exact List.mem_cons_of_mem _ (ih h)
    · simp [Memory.unlist, hk] at h
      rcases h with h | h
      · simp [h]
      · exact List.mem_cons_of_mem _ (ih h)

theorem Memory.mem_list {a : Nat} {b : Byte} {m : Memory} {c : Host.Cell} (h : c ∈ Memory.list a b m) :
    c = (a, b) ∨ c ∈ m := by
  induction m with
  | nil => simp [Memory.list] at h; exact .inl h
  | cons hd tl ih =>
    obtain ⟨k, d⟩ := hd
    by_cases hk : k = a
    · simp [Memory.list, hk] at h
      rcases h with h | h
      · exact .inl h
      · exact .inr (List.mem_cons_of_mem _ h)
    · by_cases hlt : a < k
      · simp [Memory.list, hk, hlt] at h
        rcases h with h | h | h <;> simp [h]
      · simp [Memory.list, hk, hlt] at h
        rcases h with h | h
        · simp [h]
        · rcases ih h with h | h <;> simp [h]

theorem Memory.sorted_unlist (a : Nat) {m : Memory} (h : m.Pairwise fun c d => c.1 < d.1) :
    (Memory.unlist a m).Pairwise fun c d => c.1 < d.1 := by
  induction m with
  | nil => simp [Memory.unlist]
  | cons hd tl ih =>
    obtain ⟨k, d⟩ := hd
    rw [List.pairwise_cons] at h
    by_cases hk : k = a
    · simpa [Memory.unlist, hk] using ih h.2
    · simp only [Memory.unlist, hk, if_false, List.pairwise_cons]
      exact ⟨fun c hc => h.1 c (Memory.mem_unlist hc), ih h.2⟩

theorem Memory.sorted_list (a : Nat) (b : Byte) {m : Memory} (h : m.Pairwise fun c d => c.1 < d.1) :
    (Memory.list a b m).Pairwise fun c d => c.1 < d.1 := by
  induction m with
  | nil => simp [Memory.list]
  | cons hd tl ih =>
    obtain ⟨k, d⟩ := hd
    rw [List.pairwise_cons] at h
    by_cases hk : k = a
    · subst hk
      simpa [Memory.list, List.pairwise_cons] using h
    · by_cases hlt : a < k
      · simp only [Memory.list, hk, hlt, if_false, if_true, List.pairwise_cons]
        refine ⟨fun c hc => ?_, h⟩
        rcases List.mem_cons.1 hc with hc | hc
        · simpa [hc] using hlt
        · exact lt_trans hlt (h.1 c hc)
      · simp only [Memory.list, hk, hlt, if_false, List.pairwise_cons]
        refine ⟨fun c hc => ?_, ih h.2⟩
        rcases Memory.mem_list hc with hc | hc
        · subst hc; simp only; omega
        · exact h.1 c hc

/-- A write inside the address space keeps the canonical form. -/
theorem Memory.wf_write {m : Memory} {a : Nat} (b : Byte) (ha : a ≤ addrMax) (h : Memory.wf font m) :
    Memory.wf font (Memory.write font m a b) := by
  unfold Memory.write
  split
  · exact ⟨Memory.sorted_unlist a h.1, fun c hc => h.2 c (Memory.mem_unlist hc)⟩
  · refine ⟨Memory.sorted_list a b h.1, fun c hc => ?_⟩
    rcases Memory.mem_list hc with hc | hc
    · subst hc; exact ⟨ha, by assumption⟩
    · exact h.2 c hc

/-- Storing bytes inside the address space keeps the canonical form. -/
theorem Memory.wf_writeList (bs : List Byte) {m : Memory} {a : Nat} (ha : a + bs.length ≤ addrMax + 1)
    (h : Memory.wf font m) : Memory.wf font (Memory.writeList font m a bs) := by
  induction bs generalizing m a with
  | nil => exact h
  | cons b bs ih =>
    simp only [List.length_cons] at ha
    exact ih (by omega) (Memory.wf_write font b (by omega) h)

/-- The empty list is canonical: the reset contents list nothing. -/
theorem Memory.wf_nil : Memory.wf font [] := by simp [Memory.wf]

/-- The memory of `State.reset` is canonical. -/
theorem Memory.wf_reset : Memory.wf State.reset.cfg.font State.reset.mem := Memory.wf_nil _

end Sys2Proof.Machine
end

