-- ==== Sys2Proof/Laws/State.lean ====
section
/-! SUPPORT. Field lemmas of the state: one per field per single-field update, and what a register read gives after an
update. Later proofs use these and never unfold a record update. -/

namespace Sys2Proof.Machine

variable (s : State)

/-! ## setReg -/

@[simp] theorem State.setReg_v (r : Reg) (b : Byte) : (s.setReg r b).v = s.v.set r.val b r.isLt := rfl
@[simp] theorem State.setReg_i (r : Reg) (b : Byte) : (s.setReg r b).i = s.i := rfl
@[simp] theorem State.setReg_pc (r : Reg) (b : Byte) : (s.setReg r b).pc = s.pc := rfl
@[simp] theorem State.setReg_stack (r : Reg) (b : Byte) : (s.setReg r b).stack = s.stack := rfl
@[simp] theorem State.setReg_dt (r : Reg) (b : Byte) : (s.setReg r b).dt = s.dt := rfl
@[simp] theorem State.setReg_st (r : Reg) (b : Byte) : (s.setReg r b).st = s.st := rfl
@[simp] theorem State.setReg_mem (r : Reg) (b : Byte) : (s.setReg r b).mem = s.mem := rfl
@[simp] theorem State.setReg_disp (r : Reg) (b : Byte) : (s.setReg r b).disp = s.disp := rfl
@[simp] theorem State.setReg_status (r : Reg) (b : Byte) : (s.setReg r b).status = s.status := rfl
@[simp] theorem State.setReg_cfg (r : Reg) (b : Byte) : (s.setReg r b).cfg = s.cfg := rfl
@[simp] theorem State.setReg_slot (r : Reg) (b : Byte) : (s.setReg r b).slot = s.slot := rfl
@[simp] theorem State.setReg_draws (r : Reg) (b : Byte) : (s.setReg r b).draws = s.draws := rfl
@[simp] theorem State.setReg_out (r : Reg) (b : Byte) : (s.setReg r b).out = s.out := rfl
@[simp] theorem State.setReg_byteAt (r : Reg) (b : Byte) (c : Nat) : (s.setReg r b).byteAt c = s.byteAt c := rfl
@[simp] theorem State.setReg_ea (r : Reg) (b : Byte) (k : Nat) : (s.setReg r b).ea k = s.ea k := rfl

/-! ## setI -/

@[simp] theorem State.setI_v (a : Half) : (s.setI a).v = s.v := rfl
@[simp] theorem State.setI_i (a : Half) : (s.setI a).i = a := rfl
@[simp] theorem State.setI_pc (a : Half) : (s.setI a).pc = s.pc := rfl
@[simp] theorem State.setI_stack (a : Half) : (s.setI a).stack = s.stack := rfl
@[simp] theorem State.setI_dt (a : Half) : (s.setI a).dt = s.dt := rfl
@[simp] theorem State.setI_st (a : Half) : (s.setI a).st = s.st := rfl
@[simp] theorem State.setI_mem (a : Half) : (s.setI a).mem = s.mem := rfl
@[simp] theorem State.setI_disp (a : Half) : (s.setI a).disp = s.disp := rfl
@[simp] theorem State.setI_status (a : Half) : (s.setI a).status = s.status := rfl
@[simp] theorem State.setI_cfg (a : Half) : (s.setI a).cfg = s.cfg := rfl
@[simp] theorem State.setI_slot (a : Half) : (s.setI a).slot = s.slot := rfl
@[simp] theorem State.setI_draws (a : Half) : (s.setI a).draws = s.draws := rfl
@[simp] theorem State.setI_out (a : Half) : (s.setI a).out = s.out := rfl
@[simp] theorem State.setI_reg (a : Half) (k : Reg) : (s.setI a).reg k = s.reg k := rfl
@[simp] theorem State.setI_byteAt (a : Half) (c : Nat) : (s.setI a).byteAt c = s.byteAt c := rfl

/-! ## setPc -/

@[simp] theorem State.setPc_v (a : Half) : (s.setPc a).v = s.v := rfl
@[simp] theorem State.setPc_i (a : Half) : (s.setPc a).i = s.i := rfl
@[simp] theorem State.setPc_pc (a : Half) : (s.setPc a).pc = a := rfl
@[simp] theorem State.setPc_stack (a : Half) : (s.setPc a).stack = s.stack := rfl
@[simp] theorem State.setPc_dt (a : Half) : (s.setPc a).dt = s.dt := rfl
@[simp] theorem State.setPc_st (a : Half) : (s.setPc a).st = s.st := rfl
@[simp] theorem State.setPc_mem (a : Half) : (s.setPc a).mem = s.mem := rfl
@[simp] theorem State.setPc_disp (a : Half) : (s.setPc a).disp = s.disp := rfl
@[simp] theorem State.setPc_status (a : Half) : (s.setPc a).status = s.status := rfl
@[simp] theorem State.setPc_cfg (a : Half) : (s.setPc a).cfg = s.cfg := rfl
@[simp] theorem State.setPc_slot (a : Half) : (s.setPc a).slot = s.slot := rfl
@[simp] theorem State.setPc_draws (a : Half) : (s.setPc a).draws = s.draws := rfl
@[simp] theorem State.setPc_out (a : Half) : (s.setPc a).out = s.out := rfl
@[simp] theorem State.setPc_reg (a : Half) (k : Reg) : (s.setPc a).reg k = s.reg k := rfl
@[simp] theorem State.setPc_byteAt (a : Half) (c : Nat) : (s.setPc a).byteAt c = s.byteAt c := rfl
@[simp] theorem State.setPc_ea (a : Half) (k : Nat) : (s.setPc a).ea k = s.ea k := rfl

/-! ## setStack -/

@[simp] theorem State.setStack_v (l : List Half) : (s.setStack l).v = s.v := rfl
@[simp] theorem State.setStack_i (l : List Half) : (s.setStack l).i = s.i := rfl
@[simp] theorem State.setStack_pc (l : List Half) : (s.setStack l).pc = s.pc := rfl
@[simp] theorem State.setStack_stack (l : List Half) : (s.setStack l).stack = l := rfl
@[simp] theorem State.setStack_dt (l : List Half) : (s.setStack l).dt = s.dt := rfl
@[simp] theorem State.setStack_st (l : List Half) : (s.setStack l).st = s.st := rfl
@[simp] theorem State.setStack_mem (l : List Half) : (s.setStack l).mem = s.mem := rfl
@[simp] theorem State.setStack_disp (l : List Half) : (s.setStack l).disp = s.disp := rfl
@[simp] theorem State.setStack_status (l : List Half) : (s.setStack l).status = s.status := rfl
@[simp] theorem State.setStack_cfg (l : List Half) : (s.setStack l).cfg = s.cfg := rfl
@[simp] theorem State.setStack_slot (l : List Half) : (s.setStack l).slot = s.slot := rfl
@[simp] theorem State.setStack_draws (l : List Half) : (s.setStack l).draws = s.draws := rfl
@[simp] theorem State.setStack_out (l : List Half) : (s.setStack l).out = s.out := rfl
@[simp] theorem State.setStack_reg (l : List Half) (k : Reg) : (s.setStack l).reg k = s.reg k := rfl
@[simp] theorem State.setStack_byteAt (l : List Half) (c : Nat) : (s.setStack l).byteAt c = s.byteAt c := rfl
@[simp] theorem State.setStack_ea (l : List Half) (k : Nat) : (s.setStack l).ea k = s.ea k := rfl

/-! ## setDt -/

@[simp] theorem State.setDt_v (b : Byte) : (s.setDt b).v = s.v := rfl
@[simp] theorem State.setDt_i (b : Byte) : (s.setDt b).i = s.i := rfl
@[simp] theorem State.setDt_pc (b : Byte) : (s.setDt b).pc = s.pc := rfl
@[simp] theorem State.setDt_stack (b : Byte) : (s.setDt b).stack = s.stack := rfl
@[simp] theorem State.setDt_dt (b : Byte) : (s.setDt b).dt = b := rfl
@[simp] theorem State.setDt_st (b : Byte) : (s.setDt b).st = s.st := rfl
@[simp] theorem State.setDt_mem (b : Byte) : (s.setDt b).mem = s.mem := rfl
@[simp] theorem State.setDt_disp (b : Byte) : (s.setDt b).disp = s.disp := rfl
@[simp] theorem State.setDt_status (b : Byte) : (s.setDt b).status = s.status := rfl
@[simp] theorem State.setDt_cfg (b : Byte) : (s.setDt b).cfg = s.cfg := rfl
@[simp] theorem State.setDt_slot (b : Byte) : (s.setDt b).slot = s.slot := rfl
@[simp] theorem State.setDt_draws (b : Byte) : (s.setDt b).draws = s.draws := rfl
@[simp] theorem State.setDt_out (b : Byte) : (s.setDt b).out = s.out := rfl
@[simp] theorem State.setDt_reg (b : Byte) (k : Reg) : (s.setDt b).reg k = s.reg k := rfl
@[simp] theorem State.setDt_byteAt (b : Byte) (c : Nat) : (s.setDt b).byteAt c = s.byteAt c := rfl
@[simp] theorem State.setDt_ea (b : Byte) (k : Nat) : (s.setDt b).ea k = s.ea k := rfl

/-! ## setSt -/

@[simp] theorem State.setSt_v (b : Byte) : (s.setSt b).v = s.v := rfl
@[simp] theorem State.setSt_i (b : Byte) : (s.setSt b).i = s.i := rfl
@[simp] theorem State.setSt_pc (b : Byte) : (s.setSt b).pc = s.pc := rfl
@[simp] theorem State.setSt_stack (b : Byte) : (s.setSt b).stack = s.stack := rfl
@[simp] theorem State.setSt_dt (b : Byte) : (s.setSt b).dt = s.dt := rfl
@[simp] theorem State.setSt_st (b : Byte) : (s.setSt b).st = b := rfl
@[simp] theorem State.setSt_mem (b : Byte) : (s.setSt b).mem = s.mem := rfl
@[simp] theorem State.setSt_disp (b : Byte) : (s.setSt b).disp = s.disp := rfl
@[simp] theorem State.setSt_status (b : Byte) : (s.setSt b).status = s.status := rfl
@[simp] theorem State.setSt_cfg (b : Byte) : (s.setSt b).cfg = s.cfg := rfl
@[simp] theorem State.setSt_slot (b : Byte) : (s.setSt b).slot = s.slot := rfl
@[simp] theorem State.setSt_draws (b : Byte) : (s.setSt b).draws = s.draws := rfl
@[simp] theorem State.setSt_out (b : Byte) : (s.setSt b).out = s.out := rfl
@[simp] theorem State.setSt_reg (b : Byte) (k : Reg) : (s.setSt b).reg k = s.reg k := rfl
@[simp] theorem State.setSt_byteAt (b : Byte) (c : Nat) : (s.setSt b).byteAt c = s.byteAt c := rfl
@[simp] theorem State.setSt_ea (b : Byte) (k : Nat) : (s.setSt b).ea k = s.ea k := rfl

/-! ## setMem -/

@[simp] theorem State.setMem_v (m : Memory) : (s.setMem m).v = s.v := rfl
@[simp] theorem State.setMem_i (m : Memory) : (s.setMem m).i = s.i := rfl
@[simp] theorem State.setMem_pc (m : Memory) : (s.setMem m).pc = s.pc := rfl
@[simp] theorem State.setMem_stack (m : Memory) : (s.setMem m).stack = s.stack := rfl
@[simp] theorem State.setMem_dt (m : Memory) : (s.setMem m).dt = s.dt := rfl
@[simp] theorem State.setMem_st (m : Memory) : (s.setMem m).st = s.st := rfl
@[simp] theorem State.setMem_mem (m : Memory) : (s.setMem m).mem = m := rfl
@[simp] theorem State.setMem_disp (m : Memory) : (s.setMem m).disp = s.disp := rfl
@[simp] theorem State.setMem_status (m : Memory) : (s.setMem m).status = s.status := rfl
@[simp] theorem State.setMem_cfg (m : Memory) : (s.setMem m).cfg = s.cfg := rfl
@[simp] theorem State.setMem_slot (m : Memory) : (s.setMem m).slot = s.slot := rfl
@[simp] theorem State.setMem_draws (m : Memory) : (s.setMem m).draws = s.draws := rfl
@[simp] theorem State.setMem_out (m : Memory) : (s.setMem m).out = s.out := rfl
@[simp] theorem State.setMem_reg (m : Memory) (k : Reg) : (s.setMem m).reg k = s.reg k := rfl
@[simp] theorem State.setMem_ea (m : Memory) (k : Nat) : (s.setMem m).ea k = s.ea k := rfl

/-! ## setDisp -/

@[simp] theorem State.setDisp_v (d : Display) : (s.setDisp d).v = s.v := rfl
@[simp] theorem State.setDisp_i (d : Display) : (s.setDisp d).i = s.i := rfl
@[simp] theorem State.setDisp_pc (d : Display) : (s.setDisp d).pc = s.pc := rfl
@[simp] theorem State.setDisp_stack (d : Display) : (s.setDisp d).stack = s.stack := rfl
@[simp] theorem State.setDisp_dt (d : Display) : (s.setDisp d).dt = s.dt := rfl
@[simp] theorem State.setDisp_st (d : Display) : (s.setDisp d).st = s.st := rfl
@[simp] theorem State.setDisp_mem (d : Display) : (s.setDisp d).mem = s.mem := rfl
@[simp] theorem State.setDisp_disp (d : Display) : (s.setDisp d).disp = d := rfl
@[simp] theorem State.setDisp_status (d : Display) : (s.setDisp d).status = s.status := rfl
@[simp] theorem State.setDisp_cfg (d : Display) : (s.setDisp d).cfg = s.cfg := rfl
@[simp] theorem State.setDisp_slot (d : Display) : (s.setDisp d).slot = s.slot := rfl
@[simp] theorem State.setDisp_draws (d : Display) : (s.setDisp d).draws = s.draws := rfl
@[simp] theorem State.setDisp_out (d : Display) : (s.setDisp d).out = s.out := rfl
@[simp] theorem State.setDisp_reg (d : Display) (k : Reg) : (s.setDisp d).reg k = s.reg k := rfl
@[simp] theorem State.setDisp_byteAt (d : Display) (c : Nat) : (s.setDisp d).byteAt c = s.byteAt c := rfl
@[simp] theorem State.setDisp_ea (d : Display) (k : Nat) : (s.setDisp d).ea k = s.ea k := rfl

/-! ## setDraws -/

@[simp] theorem State.setDraws_v (n : Nat) : (s.setDraws n).v = s.v := rfl
@[simp] theorem State.setDraws_i (n : Nat) : (s.setDraws n).i = s.i := rfl
@[simp] theorem State.setDraws_pc (n : Nat) : (s.setDraws n).pc = s.pc := rfl
@[simp] theorem State.setDraws_stack (n : Nat) : (s.setDraws n).stack = s.stack := rfl
@[simp] theorem State.setDraws_dt (n : Nat) : (s.setDraws n).dt = s.dt := rfl
@[simp] theorem State.setDraws_st (n : Nat) : (s.setDraws n).st = s.st := rfl
@[simp] theorem State.setDraws_mem (n : Nat) : (s.setDraws n).mem = s.mem := rfl
@[simp] theorem State.setDraws_disp (n : Nat) : (s.setDraws n).disp = s.disp := rfl
@[simp] theorem State.setDraws_status (n : Nat) : (s.setDraws n).status = s.status := rfl
@[simp] theorem State.setDraws_cfg (n : Nat) : (s.setDraws n).cfg = s.cfg := rfl
@[simp] theorem State.setDraws_slot (n : Nat) : (s.setDraws n).slot = s.slot := rfl
@[simp] theorem State.setDraws_draws (n : Nat) : (s.setDraws n).draws = n := rfl
@[simp] theorem State.setDraws_out (n : Nat) : (s.setDraws n).out = s.out := rfl
@[simp] theorem State.setDraws_reg (n : Nat) (k : Reg) : (s.setDraws n).reg k = s.reg k := rfl
@[simp] theorem State.setDraws_byteAt (n : Nat) (c : Nat) : (s.setDraws n).byteAt c = s.byteAt c := rfl
@[simp] theorem State.setDraws_ea (n : Nat) (k : Nat) : (s.setDraws n).ea k = s.ea k := rfl

/-! ## setSlot -/

@[simp] theorem State.setSlot_v (n : Nat) : (s.setSlot n).v = s.v := rfl
@[simp] theorem State.setSlot_i (n : Nat) : (s.setSlot n).i = s.i := rfl
@[simp] theorem State.setSlot_pc (n : Nat) : (s.setSlot n).pc = s.pc := rfl
@[simp] theorem State.setSlot_stack (n : Nat) : (s.setSlot n).stack = s.stack := rfl
@[simp] theorem State.setSlot_dt (n : Nat) : (s.setSlot n).dt = s.dt := rfl
@[simp] theorem State.setSlot_st (n : Nat) : (s.setSlot n).st = s.st := rfl
@[simp] theorem State.setSlot_mem (n : Nat) : (s.setSlot n).mem = s.mem := rfl
@[simp] theorem State.setSlot_disp (n : Nat) : (s.setSlot n).disp = s.disp := rfl
@[simp] theorem State.setSlot_status (n : Nat) : (s.setSlot n).status = s.status := rfl
@[simp] theorem State.setSlot_cfg (n : Nat) : (s.setSlot n).cfg = s.cfg := rfl
@[simp] theorem State.setSlot_slot (n : Nat) : (s.setSlot n).slot = n := rfl
@[simp] theorem State.setSlot_draws (n : Nat) : (s.setSlot n).draws = s.draws := rfl
@[simp] theorem State.setSlot_out (n : Nat) : (s.setSlot n).out = s.out := rfl
@[simp] theorem State.setSlot_reg (n : Nat) (k : Reg) : (s.setSlot n).reg k = s.reg k := rfl
@[simp] theorem State.setSlot_byteAt (n : Nat) (c : Nat) : (s.setSlot n).byteAt c = s.byteAt c := rfl
@[simp] theorem State.setSlot_ea (n : Nat) (k : Nat) : (s.setSlot n).ea k = s.ea k := rfl

/-! ## setOut -/

@[simp] theorem State.setOut_v (o : List Output) : (s.setOut o).v = s.v := rfl
@[simp] theorem State.setOut_i (o : List Output) : (s.setOut o).i = s.i := rfl
@[simp] theorem State.setOut_pc (o : List Output) : (s.setOut o).pc = s.pc := rfl
@[simp] theorem State.setOut_stack (o : List Output) : (s.setOut o).stack = s.stack := rfl
@[simp] theorem State.setOut_dt (o : List Output) : (s.setOut o).dt = s.dt := rfl
@[simp] theorem State.setOut_st (o : List Output) : (s.setOut o).st = s.st := rfl
@[simp] theorem State.setOut_mem (o : List Output) : (s.setOut o).mem = s.mem := rfl
@[simp] theorem State.setOut_disp (o : List Output) : (s.setOut o).disp = s.disp := rfl
@[simp] theorem State.setOut_status (o : List Output) : (s.setOut o).status = s.status := rfl
@[simp] theorem State.setOut_cfg (o : List Output) : (s.setOut o).cfg = s.cfg := rfl
@[simp] theorem State.setOut_slot (o : List Output) : (s.setOut o).slot = s.slot := rfl
@[simp] theorem State.setOut_draws (o : List Output) : (s.setOut o).draws = s.draws := rfl
@[simp] theorem State.setOut_out (o : List Output) : (s.setOut o).out = o := rfl
@[simp] theorem State.setOut_reg (o : List Output) (k : Reg) : (s.setOut o).reg k = s.reg k := rfl
@[simp] theorem State.setOut_byteAt (o : List Output) (c : Nat) : (s.setOut o).byteAt c = s.byteAt c := rfl
@[simp] theorem State.setOut_ea (o : List Output) (k : Nat) : (s.setOut o).ea k = s.ea k := rfl

/-! ## raise -/

@[simp] theorem State.raise_v (e : CoreError) : (s.raise e).v = s.v := rfl
@[simp] theorem State.raise_i (e : CoreError) : (s.raise e).i = s.i := rfl
@[simp] theorem State.raise_pc (e : CoreError) : (s.raise e).pc = s.pc := rfl
@[simp] theorem State.raise_stack (e : CoreError) : (s.raise e).stack = s.stack := rfl
@[simp] theorem State.raise_dt (e : CoreError) : (s.raise e).dt = s.dt := rfl
@[simp] theorem State.raise_st (e : CoreError) : (s.raise e).st = s.st := rfl
@[simp] theorem State.raise_mem (e : CoreError) : (s.raise e).mem = s.mem := rfl
@[simp] theorem State.raise_disp (e : CoreError) : (s.raise e).disp = s.disp := rfl
@[simp] theorem State.raise_status (e : CoreError) : (s.raise e).status = .halted e := rfl
@[simp] theorem State.raise_cfg (e : CoreError) : (s.raise e).cfg = s.cfg := rfl
@[simp] theorem State.raise_slot (e : CoreError) : (s.raise e).slot = s.slot := rfl
@[simp] theorem State.raise_draws (e : CoreError) : (s.raise e).draws = s.draws := rfl
@[simp] theorem State.raise_out (e : CoreError) : (s.raise e).out = s.out := rfl
@[simp] theorem State.raise_reg (e : CoreError) (k : Reg) : (s.raise e).reg k = s.reg k := rfl
@[simp] theorem State.raise_byteAt (e : CoreError) (c : Nat) : (s.raise e).byteAt c = s.byteAt c := rfl
@[simp] theorem State.raise_ea (e : CoreError) (k : Nat) : (s.raise e).ea k = s.ea k := rfl

/-! ## Registers -/

/-- A register written is the register read (R11). -/
@[simp] theorem State.reg_setReg_same (r : Reg) (b : Byte) : (s.setReg r b).reg r = b := by
  simp [State.reg, State.setReg]

/-- A register write leaves every other register alone: there are no aliases (R20). -/
theorem State.reg_setReg_other (r k : Reg) (b : Byte) (h : k ≠ r) : (s.setReg r b).reg k = s.reg k := by
  have : r.val ≠ k.val := fun e => h (Fin.ext e.symm)
  simp [State.reg, State.setReg, this]

/-- What a register holds after a register write. -/
theorem State.reg_setReg (r k : Reg) (b : Byte) : (s.setReg r b).reg k = if k = r then b else s.reg k := by
  by_cases h : k = r
  · subst h; simp
  · simp [h, State.reg_setReg_other]

/-- Two register files that agree on every register are equal. -/
theorem regs_ext {v w : Vector Byte 16} (h : ∀ r : Reg, v[r.val] = w[r.val]) : v = w :=
  Vector.ext fun k hk => h ⟨k, hk⟩

/-- The status says whether the core is halted. -/
theorem State.isHalted_iff : s.isHalted = true ↔ ∃ e, s.status = .halted e := by
  unfold State.isHalted; split <;> simp_all

@[simp] theorem State.raise_isHalted (e : CoreError) : (s.raise e).isHalted = true := rfl

theorem State.isHalted_of_running (h : s.status = .running) : s.isHalted = false := by simp [State.isHalted, h]

end Sys2Proof.Machine
end

