-- ==== Sys2Proof/Laws/Ops.lean ====
section
/-! SUPPORT. What the shared operations can do, said once: sequencing, memory access, fetch, the call stack, the draw. -/

namespace Sys2Proof.Machine

/-! ## Sequencing (R14, R15) -/

section
variable {α β κ σ : Type}

@[simp] theorem Flow.bind_go (a : α) (s : State) (f : α → State → Flow β) : (Flow.go a s).bind f = f a s := rfl
@[simp] theorem Flow.bind_stop (e : CoreError) (s : State) (f : α → State → Flow β) :
    (Flow.stop e s : Flow α).bind f = .stop e s := rfl
@[simp] theorem Flow.state_go (a : α) (s : State) : (Flow.go a s).state = s := rfl
@[simp] theorem Flow.state_stop (e : CoreError) (s : State) : (Flow.stop e s : Flow α).state = s := rfl
@[simp] theorem Flow.toState_go (a : α) (s : State) : (Flow.go a s).toState = s := rfl
@[simp] theorem Flow.toState_stop (e : CoreError) (s : State) : (Flow.stop e s : Flow α).toState = s.raise e := rfl
@[simp] theorem Flow.finish_eq (m : Flow α) : m.finish = .next m.toState := rfl
@[simp] theorem Flow.fold_nil (f : σ → κ → State → Flow σ) (acc : σ) (s : State) :
    Flow.fold f [] acc s = .go acc s := rfl
@[simp] theorem Flow.fold_cons (f : σ → κ → State → Flow σ) (k : κ) (ks : List κ) (acc : σ) (s : State) :
    Flow.fold f (k :: ks) acc s = (f acc k s).bind fun a t => Flow.fold f ks a t := rfl

theorem Flow.bind_assoc {γ : Type} (m : Flow α) (f : α → State → Flow β) (g : β → State → Flow γ) :
    (m.bind f).bind g = m.bind fun a s => (f a s).bind g := by
  cases m <;> rfl

/-- A loop over two lists one after the other. -/
theorem Flow.fold_append (f : σ → κ → State → Flow σ) (ks ls : List κ) (acc : σ) (s : State) :
    Flow.fold f (ks ++ ls) acc s = (Flow.fold f ks acc s).bind fun a t => Flow.fold f ls a t := by
  induction ks generalizing acc s with
  | nil => rfl
  | cons k ks ih => simp only [List.cons_append, Flow.fold_cons, Flow.bind_assoc, ih]

/-- A property of the state that both parts of a sequence keep, the sequence keeps. -/
theorem Flow.bind_keeps {P : State → Prop} (m : Flow α) (f : α → State → Flow β) (hm : P m.state)
    (hf : ∀ a s, P s → P (f a s).state) : P (m.bind f).state := by
  cases m with
  | go a s => exact hf a s hm
  | stop e s => exact hm

/-- A property of the state that the body of a loop keeps, the loop keeps. -/
theorem Flow.fold_keeps {P : State → Prop} (f : σ → κ → State → Flow σ)
    (hf : ∀ a k s, P s → P (f a k s).state) (ks : List κ) (acc : σ) (s : State) (hs : P s) :
    P (Flow.fold f ks acc s).state := by
  induction ks generalizing acc s with
  | nil => exact hs
  | cons k ks ih => exact Flow.bind_keeps _ _ (hf acc k s hs) fun a t ht => ih a t ht

/-- Raising an error writes the status and nothing else. -/
theorem Flow.toState_cases (m : Flow α) : m.toState = m.state ∨ ∃ e, m.toState = m.state.raise e := by
  cases m with
  | go a s => exact .inl rfl
  | stop e s => exact .inr ⟨e, rfl⟩
end

/-! ## Memory access (R51, R52) -/

section
variable {a c : Nat} {b : Byte} {s : State}

theorem memRead_in (h : a ≤ addrMax) : memRead a s = .go (s.byteAt a) s := if_pos h
theorem memRead_out (h : addrMax < a) : memRead a s = .stop (.addressOutOfRange a) s := if_neg (by omega)
theorem memWrite_in (h : a ≤ addrMax) :
    memWrite a b s = .go () (s.setMem (Memory.write s.cfg.font s.mem a b)) := if_pos h
theorem memWrite_out (h : addrMax < a) : memWrite a b s = .stop (.addressOutOfRange a) s := if_neg (by omega)

/-- A read changes nothing (R57). -/
@[simp] theorem memRead_state : (memRead a s).state = s := by
  unfold memRead; split <;> rfl

/-- Everything a byte store can do: it stores inside the address space, or raises and stores nothing (R52). -/
theorem memWrite_cases (a : Nat) (b : Byte) (s : State) :
    (a ≤ addrMax ∧ memWrite a b s = .go () (s.setMem (Memory.write s.cfg.font s.mem a b))) ∨
    (addrMax < a ∧ memWrite a b s = .stop (.addressOutOfRange a) s) := by
  by_cases h : a ≤ addrMax
  · exact .inl ⟨h, memWrite_in h⟩
  · exact .inr ⟨by omega, memWrite_out (by omega)⟩

/-- The byte read after a store. -/
theorem State.byteAt_write : (s.setMem (Memory.write s.cfg.font s.mem a b)).byteAt c =
    if c = a then b else s.byteAt c := Memory.read_write _ _ _ _ _

/-- A store keeps the canonical form of memory. -/
theorem memWrite_wf (h : Memory.wf s.cfg.font s.mem) :
    Memory.wf (memWrite a b s).state.cfg.font (memWrite a b s).state.mem := by
  rcases memWrite_cases a b s with ⟨ha, e⟩ | ⟨-, e⟩ <;> rw [e]
  · exact Memory.wf_write _ _ ha h
  · exact h
end

/-! ## Fetch (R82) -/

theorem fetch_in {s : State} (h : s.pc.toNat + 1 ≤ addrMax) :
    fetch s = .go (wordOfBytes (s.byteAt s.pc.toNat) (s.byteAt (s.pc.toNat + 1))) s := by
  simp only [fetch, memRead_in (show s.pc.toNat ≤ addrMax by omega), memRead_in h, Flow.bind_go]

theorem fetch_out {s : State} (h : addrMax < s.pc.toNat + 1) :
    fetch s = .stop (.addressOutOfRange (max s.pc.toNat 0x1000)) s := by
  by_cases hp : s.pc.toNat ≤ addrMax
  · have : max s.pc.toNat 0x1000 = s.pc.toNat + 1 := by simp only [addrMax] at *; omega
    simp only [fetch, memRead_in hp, memRead_out h, Flow.bind_go, Flow.bind_stop, this]
  · have : max s.pc.toNat 0x1000 = s.pc.toNat := by simp only [addrMax] at *; omega
    simp only [fetch, memRead_out (show addrMax < s.pc.toNat by omega), Flow.bind_stop, this]

/-- A fetch changes nothing (R82). -/
@[simp] theorem fetch_state (s : State) : (fetch s).state = s := by
  by_cases h : s.pc.toNat + 1 ≤ addrMax
  · rw [fetch_in h]; rfl
  · rw [fetch_out (by omega)]; rfl

/-! ## The call stack (R28, R29) and the draw (R151) -/

theorem pushReturn_cases (a : Half) (s : State) :
    (s.stackFull = false ∧ pushReturn a s = .go () (s.setStack (a :: s.stack))) ∨
    (s.stackFull = true ∧ pushReturn a s = .stop .stackOverflow s) := by
  unfold pushReturn; cases h : s.stackFull <;> simp

theorem popReturn_cases (s : State) :
    (∃ a rest, s.stack = a :: rest ∧ popReturn s = .go a (s.setStack rest)) ∨
    (s.stack = [] ∧ popReturn s = .stop .stackUnderflow s) := by
  unfold popReturn; cases h : s.stack <;> simp

@[simp] theorem randomByte_eq (s : State) :
    randomByte s = .go (Config.randomByte s.draws) (s.setDraws (s.draws + 1)) := rfl

end Sys2Proof.Machine
end

