-- ==== Sys2Proof/Laws/Buffer.lean ====
section
/-! SUPPORT. The display buffer: cells after a write, the grid's shape, the single wrap, and what a toggle can do
(44_display.md R200 to R206). -/

namespace Sys2Proof.Machine

/-! ## The grid -/

theorem Display.wf_blank (w h : Nat) : Display.wf w h (Display.blank w h) := by
  refine ⟨by simp [Display.blank], fun row hr => ?_⟩
  rw [Display.blank, List.mem_replicate] at hr
  simp [hr.2]

/-- A cleared buffer has no lit cell (R202). -/
@[simp] theorem Display.cell_blank (w h cx cy : Nat) : (Display.blank w h).cell cx cy = false := by
  unfold Display.cell Display.blank
  by_cases hy : cy < h <;> by_cases hx : cx < w <;> simp [hx, hy]

/-- Writing a cell keeps the shape of the grid. -/
theorem Display.wf_setCell {w h : Nat} {d : Display} (cx cy : Nat) (b : Bool) (hd : Display.wf w h d) :
    Display.wf w h (d.setCell cx cy b) := by
  refine ⟨by simp [Display.setCell, hd.1], fun row hr => ?_⟩
  obtain ⟨j, hj, rfl⟩ := List.mem_iff_getElem.1 hr
  have hj' : j < d.length := by simpa [Display.setCell] using hj
  have := hd.2 _ (List.getElem_mem hj')
  simp only [Display.setCell, List.getElem_modify]
  split <;> simp [this]

/-- A cell after a cell is written: the written value there, the old one everywhere else. -/
theorem Display.cell_setCell {w h : Nat} {d : Display} {cx cy : Nat} (b : Bool) (hd : Display.wf w h d)
    (hx : cx < w) (hy : cy < h) (ax ay : Nat) :
    (d.setCell cx cy b).cell ax ay = if ax = cx ∧ ay = cy then b else d.cell ax ay := by
  have hrow : d[cy]? = some d[cy] := List.getElem?_eq_getElem (hd.1 ▸ hy)
  have hlen : d[cy].length = w := hd.2 _ (List.getElem_mem _)
  by_cases h2 : ay = cy
  · subst h2
    by_cases h1 : ax = cx
    · subst h1; simp [Display.cell, Display.setCell, hrow, hlen, hx]
    · simp [Display.cell, Display.setCell, hrow, h1, Ne.symm h1]
  · simp [Display.cell, Display.setCell, h2, Ne.symm h2]

/-! ## The single wrap (R200) -/

theorem inRange_iff (c : Int) (d : Nat) : inRange c d = true ↔ 0 ≤ c ∧ c < d := by
  simp [inRange]

/-- A wrapped coordinate is inside its dimension. -/
theorem wrap1_lt {c : Int} {d w : Nat} (h : wrap1 c d = some w) : w < d := by
  have key : ∀ e : Int, inRange e d = true → e.toNat < d := fun e he => by
    rw [inRange_iff] at he; omega
  unfold wrap1 at h
  by_cases h1 : inRange c d = true
  · rw [if_pos h1, Option.some.injEq] at h
    exact h ▸ key c h1
  · rw [if_neg h1] at h
    dsimp only at h
    by_cases h2 : inRange (if c ≥ d then c - d else c + d) d = true
    · rw [if_pos h2, Option.some.injEq] at h
      exact h ▸ key _ h2
    · rw [if_neg h2] at h
      cases h

/-- The single wrap of a coordinate that is not negative, as every drawn one is (R212). -/
theorem wrap1_nat (c d : Nat) :
    wrap1 (c : Int) d = if c < d then some c else if c < 2 * d then some (c - d) else none := by
  unfold wrap1
  by_cases h : c < d
  · have : inRange (c : Int) d = true := by rw [inRange_iff]; omega
    simp [this, h]
  · have h1 : ¬ inRange (c : Int) d = true := by rw [inRange_iff]; omega
    have h2 : (c : Int) ≥ d := by omega
    by_cases h3 : c < 2 * d
    · have : inRange ((c : Int) - d) d = true := by rw [inRange_iff]; omega
      simp [h1, h2, h, h3, this]
    · have : ¬ inRange ((c : Int) - d) d = true := by rw [inRange_iff]; omega
      simp [h1, h2, h, h3, this]

/-! ## Toggle (R203) -/

/-- Everything a toggle can do: reject the column, reject the row, or invert one cell inside the buffer. -/
theorem toggle_cases (x y : Int) (s : State) :
    (wrap1 x s.cfg.displayW = none ∧ toggle x y s = .stop (.dimension (.x x)) s) ∨
    (∃ cx, wrap1 x s.cfg.displayW = some cx ∧ wrap1 y s.cfg.displayH = none ∧
      toggle x y s = .stop (.dimension (.y y)) s) ∨
    (∃ cx cy, wrap1 x s.cfg.displayW = some cx ∧ wrap1 y s.cfg.displayH = some cy ∧
      toggle x y s = .go (s.disp.cell cx cy) (s.setDisp (s.disp.setCell cx cy (!s.disp.cell cx cy)))) := by
  unfold toggle
  cases hx : wrap1 x s.cfg.displayW with
  | none => exact .inl ⟨rfl, rfl⟩
  | some cx =>
    cases hy : wrap1 y s.cfg.displayH with
    | none => exact .inr (.inl ⟨cx, rfl, rfl, rfl⟩)
    | some cy => exact .inr (.inr ⟨cx, cy, rfl, rfl, rfl⟩)

/-- A property that no change of the buffer alone can break, a sprite keeps. -/
theorem drawSprite_keeps {P : State → Prop} (hP : ∀ s d, P s → P (s.setDisp d)) (x0 y0 n : Nat) (s : State)
    (hs : P s) : P (drawSprite x0 y0 n s).state := by
  have htog : ∀ x y s, P s → P (toggle x y s).state := by
    intro x y s hs
    rcases toggle_cases x y s with ⟨-, e⟩ | ⟨_, -, -, e⟩ | ⟨_, _, -, -, e⟩ <;> rw [e]
    · exact hs
    · exact hs
    · exact hP _ _ hs
  refine Flow.fold_keeps _ (fun a row s hs => ?_) _ _ _ hs
  refine Flow.bind_keeps _ _ (by simpa using hs) fun b t ht => ?_
  refine Flow.fold_keeps _ (fun a col s hs => ?_) _ _ _ ht
  unfold drawCol
  split
  · exact Flow.bind_keeps _ _ (htog _ _ _ hs) fun _ _ h => h
  · exact hs

end Sys2Proof.Machine
end

