-- ==== Sys2Proof/Laws/Decode.lean ====
section
/-! SUPPORT. Fields of assembled words, register fields, masks, and big-endian bytes (30_encoding.md R81, R83;
20_memory.md R54). -/

namespace Sys2Proof

/-- A register number survives its 4-bit field (R81). -/
@[simp] theorem regOf_regBits (r : Reg) : regOf (regBits r) = r := by
  revert r; decide

/-- A 4-bit field survives its register number. -/
@[simp] theorem regBits_regOf (b : BitVec 4) : regBits (regOf b) = b := by
  revert b; decide

/-! ## Fields of a word given by its nibbles -/

section
variable (t x y n : BitVec 4)

@[simp] theorem fieldT_nibbles : fieldT (wordOfNibbles t x y n) = t := by
  apply BitVec.eq_of_getLsbD_eq
  intro i hi
  simp only [fieldT, wordOfNibbles, BitVec.getLsbD_extractLsb', BitVec.getLsbD_append]
  interval_cases i <;> rfl

@[simp] theorem fieldX_nibbles : fieldX (wordOfNibbles t x y n) = x := by
  apply BitVec.eq_of_getLsbD_eq
  intro i hi
  simp only [fieldX, wordOfNibbles, BitVec.getLsbD_extractLsb', BitVec.getLsbD_append]
  interval_cases i <;> rfl

@[simp] theorem fieldY_nibbles : fieldY (wordOfNibbles t x y n) = y := by
  apply BitVec.eq_of_getLsbD_eq
  intro i hi
  simp only [fieldY, wordOfNibbles, BitVec.getLsbD_extractLsb', BitVec.getLsbD_append]
  interval_cases i <;> rfl

@[simp] theorem fieldN_nibbles : fieldN (wordOfNibbles t x y n) = n := by
  apply BitVec.eq_of_getLsbD_eq
  intro i hi
  simp only [fieldN, wordOfNibbles, BitVec.getLsbD_extractLsb', BitVec.getLsbD_append]
  interval_cases i <;> rfl

/-- `kk = y ++ n` (R80). -/
@[simp] theorem fieldKK_nibbles : fieldKK (wordOfNibbles t x y n) = y ++ n := by
  apply BitVec.eq_of_getLsbD_eq
  intro i hi
  simp only [fieldKK, wordOfNibbles, BitVec.getLsbD_extractLsb', BitVec.getLsbD_append]
  interval_cases i <;> rfl

/-- `nnn = x ++ kk` (R80). -/
@[simp] theorem fieldNNN_nibbles : fieldNNN (wordOfNibbles t x y n) = x ++ y ++ n := by
  apply BitVec.eq_of_getLsbD_eq
  intro i hi
  simp only [fieldNNN, wordOfNibbles, BitVec.getLsbD_extractLsb', BitVec.getLsbD_append]
  interval_cases i <;> rfl
end

/-- Every word is its four nibbles. -/
theorem nibbles_of_word (op : Half) : wordOfNibbles (fieldT op) (fieldX op) (fieldY op) (fieldN op) = op := by
  apply BitVec.eq_of_getLsbD_eq
  intro i hi
  simp only [fieldT, fieldX, fieldY, fieldN, wordOfNibbles, BitVec.getLsbD_extractLsb', BitVec.getLsbD_append]
  interval_cases i <;> simp

/-- A claim about all words is a claim about all nibbles. -/
theorem forall_words {P : Half → Prop} (h : ∀ t x y n, P (wordOfNibbles t x y n)) (op : Half) : P op :=
  nibbles_of_word op ▸ h _ _ _ _

/-- A byte is its two nibbles. -/
@[simp] theorem nibbles_of_byte (b : Byte) : b.extractLsb' 4 4 ++ b.extractLsb' 0 4 = b := by
  apply BitVec.eq_of_getLsbD_eq
  intro i hi
  simp only [BitVec.getLsbD_extractLsb', BitVec.getLsbD_append]
  interval_cases i <;> simp

/-- An address is its three nibbles. -/
@[simp] theorem nibbles_of_addr (a : BitVec 12) :
    a.extractLsb' 8 4 ++ a.extractLsb' 4 4 ++ a.extractLsb' 0 4 = a := by
  apply BitVec.eq_of_getLsbD_eq
  intro i hi
  simp only [BitVec.getLsbD_extractLsb', BitVec.getLsbD_append]
  interval_cases i <;> simp

theorem wordXKK_nibbles (t : BitVec 4) (x : Reg) (kk : Byte) :
    wordXKK t x kk = wordOfNibbles t (regBits x) (kk.extractLsb' 4 4) (kk.extractLsb' 0 4) := by
  apply BitVec.eq_of_getLsbD_eq
  intro i hi
  simp only [wordXKK, wordOfNibbles, BitVec.getLsbD_extractLsb', BitVec.getLsbD_append]
  interval_cases i <;> simp

theorem wordNNN_nibbles (t : BitVec 4) (a : BitVec 12) :
    wordNNN t a = wordOfNibbles t (a.extractLsb' 8 4) (a.extractLsb' 4 4) (a.extractLsb' 0 4) := by
  apply BitVec.eq_of_getLsbD_eq
  intro i hi
  simp only [wordNNN, wordOfNibbles, BitVec.getLsbD_extractLsb', BitVec.getLsbD_append]
  interval_cases i <;> simp

/-! ## Fields of an encoded instruction's word -/

section
variable (t : BitVec 4) (x y : Reg) (n : BitVec 4) (kk : Byte) (nnn : BitVec 12)

@[simp] theorem fieldT_xkk : fieldT (wordXKK t x kk) = t := by simp [wordXKK_nibbles]
@[simp] theorem fieldX_xkk : fieldX (wordXKK t x kk) = regBits x := by simp [wordXKK_nibbles]
@[simp] theorem fieldKK_xkk : fieldKK (wordXKK t x kk) = kk := by simp [wordXKK_nibbles]
@[simp] theorem fieldT_nnn : fieldT (wordNNN t nnn) = t := by simp [wordNNN_nibbles]
@[simp] theorem fieldNNN_nnn : fieldNNN (wordNNN t nnn) = nnn := by simp [wordNNN_nibbles]
@[simp] theorem fieldT_xyn : fieldT (wordXYN t x y n) = t := by simp [wordXYN]
@[simp] theorem fieldX_xyn : fieldX (wordXYN t x y n) = regBits x := by simp [wordXYN]
@[simp] theorem fieldY_xyn : fieldY (wordXYN t x y n) = regBits y := by simp [wordXYN]
@[simp] theorem fieldN_xyn : fieldN (wordXYN t x y n) = n := by simp [wordXYN]
end

/-! ## Masks (R83) -/

/-- Mask 0xF000 keeps the family. -/
theorem mask_family (t x y n : BitVec 4) : wordOfNibbles t x y n &&& 0xF000 = wordOfNibbles t 0 0 0 := by
  apply BitVec.eq_of_getLsbD_eq
  intro i hi
  simp only [wordOfNibbles, BitVec.getLsbD_and, BitVec.getLsbD_append]
  interval_cases i <;> simp

/-- Mask 0xF00F keeps the family and the low nibble. -/
theorem mask_family_low (t x y n : BitVec 4) : wordOfNibbles t x y n &&& 0xF00F = wordOfNibbles t 0 0 n := by
  apply BitVec.eq_of_getLsbD_eq
  intro i hi
  simp only [wordOfNibbles, BitVec.getLsbD_and, BitVec.getLsbD_append]
  interval_cases i <;> simp

/-- Mask 0xF0FF keeps the family and the low byte. -/
theorem mask_family_byte (t x y n : BitVec 4) : wordOfNibbles t x y n &&& 0xF0FF = wordOfNibbles t 0 y n := by
  apply BitVec.eq_of_getLsbD_eq
  intro i hi
  simp only [wordOfNibbles, BitVec.getLsbD_and, BitVec.getLsbD_append]
  interval_cases i <;> simp

/-! ## Bytes (R54) -/

/-- The two bytes of a word, the high one first, give the word back. -/
@[simp] theorem wordOfBytes_bytes (op : Half) : wordOfBytes (highByte op) (lowByte op) = op := by
  apply BitVec.eq_of_getLsbD_eq
  intro i hi
  simp only [wordOfBytes, highByte, lowByte, BitVec.getLsbD_extractLsb', BitVec.getLsbD_append]
  interval_cases i <;> simp

/-- The host's table words of two bytes go through the word decoder. -/
theorem decodeTableWord_eq (w : Nat) (i : Instr) (h : decodeWord (BitVec.ofNat 16 (w % 2 ^ 16)) = .ok i) :
    decodeTableWord 16 w = some i := by
  simp only [decodeTableWord, decode, wordOfBytes_bytes, h]

end Sys2Proof
end

