-- ==== Sys2Proof/Laws/PerInstr.lean ====
section
/-! SUPPORT. Claims about every instruction as syntax, one lemma per constructor.

EncodingRow: the encoded word of an instruction is a word of its own row of the opcode map (30_encoding.md R83). -/

namespace Sys2Proof.Laws

/-- The word of an instruction matches the mask and match columns of its row (R83). -/
def EncodingRow.Statement (i : Instr) : Prop := i.row.covers (encode i) = true

theorem covers_family (m : BitVec 4) (x y n : BitVec 4) :
    (OpcodeRow.mk 0xF000 (wordOfNibbles m 0 0 0)).covers (wordOfNibbles m x y n) = true := by
  exact beq_iff_eq.2 (mask_family m x y n)

theorem covers_family_low (m x y n : BitVec 4) :
    (OpcodeRow.mk 0xF00F (wordOfNibbles m 0 0 n)).covers (wordOfNibbles m x y n) = true := by
  exact beq_iff_eq.2 (mask_family_low m x y n)

theorem covers_family_byte (m x y n : BitVec 4) :
    (OpcodeRow.mk 0xF0FF (wordOfNibbles m 0 y n)).covers (wordOfNibbles m x y n) = true := by
  exact beq_iff_eq.2 (mask_family_byte m x y n)

theorem EncodingRow.cls : EncodingRow.Statement (.cls) := (by decide : OpcodeRow.covers _ _ = true)
theorem EncodingRow.ret : EncodingRow.Statement (.ret) := (by decide : OpcodeRow.covers _ _ = true)
theorem EncodingRow.jp (nnn : BitVec 12) : EncodingRow.Statement (.jp nnn) := by
  simp only [EncodingRow.Statement, encode, wordNNN_nibbles]; exact covers_family 0x1 _ _ _
theorem EncodingRow.call (nnn : BitVec 12) : EncodingRow.Statement (.call nnn) := by
  simp only [EncodingRow.Statement, encode, wordNNN_nibbles]; exact covers_family 0x2 _ _ _
theorem EncodingRow.seImm (x : Reg) (kk : Byte) : EncodingRow.Statement (.seImm x kk) := by
  simp only [EncodingRow.Statement, encode, wordXKK_nibbles]; exact covers_family 0x3 _ _ _
theorem EncodingRow.sneImm (x : Reg) (kk : Byte) : EncodingRow.Statement (.sneImm x kk) := by
  simp only [EncodingRow.Statement, encode, wordXKK_nibbles]; exact covers_family 0x4 _ _ _
theorem EncodingRow.seReg (x : Reg) (y : Reg) : EncodingRow.Statement (.seReg x y) := covers_family_low 0x5 (regBits x) (regBits y) 0x0
theorem EncodingRow.ldImm (x : Reg) (kk : Byte) : EncodingRow.Statement (.ldImm x kk) := by
  simp only [EncodingRow.Statement, encode, wordXKK_nibbles]; exact covers_family 0x6 _ _ _
theorem EncodingRow.addImm (x : Reg) (kk : Byte) : EncodingRow.Statement (.addImm x kk) := by
  simp only [EncodingRow.Statement, encode, wordXKK_nibbles]; exact covers_family 0x7 _ _ _
theorem EncodingRow.ldReg (x : Reg) (y : Reg) : EncodingRow.Statement (.ldReg x y) := covers_family_low 0x8 (regBits x) (regBits y) 0x0
theorem EncodingRow.or (x : Reg) (y : Reg) : EncodingRow.Statement (.or x y) := covers_family_low 0x8 (regBits x) (regBits y) 0x1
theorem EncodingRow.and (x : Reg) (y : Reg) : EncodingRow.Statement (.and x y) := covers_family_low 0x8 (regBits x) (regBits y) 0x2
theorem EncodingRow.xor (x : Reg) (y : Reg) : EncodingRow.Statement (.xor x y) := covers_family_low 0x8 (regBits x) (regBits y) 0x3
theorem EncodingRow.addReg (x : Reg) (y : Reg) : EncodingRow.Statement (.addReg x y) := covers_family_low 0x8 (regBits x) (regBits y) 0x4
theorem EncodingRow.sub (x : Reg) (y : Reg) : EncodingRow.Statement (.sub x y) := covers_family_low 0x8 (regBits x) (regBits y) 0x5
theorem EncodingRow.shr (x : Reg) (y : Reg) : EncodingRow.Statement (.shr x y) := covers_family_low 0x8 (regBits x) (regBits y) 0x6
theorem EncodingRow.subn (x : Reg) (y : Reg) : EncodingRow.Statement (.subn x y) := covers_family_low 0x8 (regBits x) (regBits y) 0x7
theorem EncodingRow.shl (x : Reg) (y : Reg) : EncodingRow.Statement (.shl x y) := covers_family_low 0x8 (regBits x) (regBits y) 0xE
theorem EncodingRow.sneReg (x : Reg) (y : Reg) : EncodingRow.Statement (.sneReg x y) := covers_family_low 0x9 (regBits x) (regBits y) 0x0
theorem EncodingRow.ldI (nnn : BitVec 12) : EncodingRow.Statement (.ldI nnn) := by
  simp only [EncodingRow.Statement, encode, wordNNN_nibbles]; exact covers_family 0xA _ _ _
theorem EncodingRow.jpV0 (nnn : BitVec 12) : EncodingRow.Statement (.jpV0 nnn) := by
  simp only [EncodingRow.Statement, encode, wordNNN_nibbles]; exact covers_family 0xB _ _ _
theorem EncodingRow.rnd (x : Reg) (kk : Byte) : EncodingRow.Statement (.rnd x kk) := by
  simp only [EncodingRow.Statement, encode, wordXKK_nibbles]; exact covers_family 0xC _ _ _
theorem EncodingRow.drw (x : Reg) (y : Reg) (n : BitVec 4) : EncodingRow.Statement (.drw x y n) := by
  simp only [EncodingRow.Statement, encode, wordXYN]; exact covers_family 0xD _ _ _
theorem EncodingRow.skp (x : Reg) : EncodingRow.Statement (.skp x) := by
  simp only [EncodingRow.Statement, encode, wordXKK_nibbles]; exact covers_family_byte 0xE (regBits x) 0x9 0xE
theorem EncodingRow.sknp (x : Reg) : EncodingRow.Statement (.sknp x) := by
  simp only [EncodingRow.Statement, encode, wordXKK_nibbles]; exact covers_family_byte 0xE (regBits x) 0xA 0x1
theorem EncodingRow.ldVxDt (x : Reg) : EncodingRow.Statement (.ldVxDt x) := by
  simp only [EncodingRow.Statement, encode, wordXKK_nibbles]; exact covers_family_byte 0xF (regBits x) 0x0 0x7
theorem EncodingRow.ldVxK (x : Reg) : EncodingRow.Statement (.ldVxK x) := by
  simp only [EncodingRow.Statement, encode, wordXKK_nibbles]; exact covers_family_byte 0xF (regBits x) 0x0 0xA
theorem EncodingRow.ldDtVx (x : Reg) : EncodingRow.Statement (.ldDtVx x) := by
  simp only [EncodingRow.Statement, encode, wordXKK_nibbles]; exact covers_family_byte 0xF (regBits x) 0x1 0x5
theorem EncodingRow.ldStVx (x : Reg) : EncodingRow.Statement (.ldStVx x) := by
  simp only [EncodingRow.Statement, encode, wordXKK_nibbles]; exact covers_family_byte 0xF (regBits x) 0x1 0x8
theorem EncodingRow.addI (x : Reg) : EncodingRow.Statement (.addI x) := by
  simp only [EncodingRow.Statement, encode, wordXKK_nibbles]; exact covers_family_byte 0xF (regBits x) 0x1 0xE
theorem EncodingRow.ldF (x : Reg) : EncodingRow.Statement (.ldF x) := by
  simp only [EncodingRow.Statement, encode, wordXKK_nibbles]; exact covers_family_byte 0xF (regBits x) 0x2 0x9
theorem EncodingRow.ldB (x : Reg) : EncodingRow.Statement (.ldB x) := by
  simp only [EncodingRow.Statement, encode, wordXKK_nibbles]; exact covers_family_byte 0xF (regBits x) 0x3 0x3
theorem EncodingRow.ldMemVx (x : Reg) : EncodingRow.Statement (.ldMemVx x) := by
  simp only [EncodingRow.Statement, encode, wordXKK_nibbles]; exact covers_family_byte 0xF (regBits x) 0x5 0x5
theorem EncodingRow.ldVxMem (x : Reg) : EncodingRow.Statement (.ldVxMem x) := by
  simp only [EncodingRow.Statement, encode, wordXKK_nibbles]; exact covers_family_byte 0xF (regBits x) 0x6 0x5

end Sys2Proof.Laws
end

