-- ==== Sys2Proof/Laws/Step.lean ====
section
/-! SUPPORT. The step: every meaning answers a next state, what one step can do, and the end of a slot
(30_encoding.md R90; 60_exceptions.md R267 to R269). -/

namespace Sys2Proof.Machine

/-! ## Outcomes -/

section
variable (f : State → State) (s : State)

@[simp] theorem onNext_next : onNext (.next s) f = .next (f s) := rfl
@[simp] theorem onNext_fault (r : Fault) : onNext (.fault r) f = .fault r := rfl
@[simp] theorem onNext_refused (r : Refusal) : onNext (.refused r) f = .refused r := rfl

theorem whenRunning_running {s : State} (o : Host.Outcome State Fault Refusal) (h : s.status = .running) :
    whenRunning s o = o := by simp [whenRunning, h]
theorem whenRunning_halted {s : State} {e : CoreError} (o : Host.Outcome State Fault Refusal)
    (h : s.status = .halted e) : whenRunning s o = .fault (.coreHalted e) := by simp [whenRunning, h]
end

/-- Every instruction answers a next state in every state: no meaning faults or refuses. -/
theorem exec_answers_next (i : Instr) (s : State) : ∃ t, exec i s = .next t := by
  cases i <;> exact ⟨_, rfl⟩

/-- `Execute` answers a next state in every state. -/
theorem execute_answers_next (op : Half) (s : State) : ∃ t, execute op s = .next t := by
  unfold execute
  split
  · exact ⟨_, rfl⟩
  · exact exec_answers_next _ _

/-- `Step` answers a next state in every state. -/
theorem stepOnce_answers_next (s : State) : ∃ t, stepOnce s = .next t := by
  unfold stepOnce
  split
  · exact ⟨_, rfl⟩
  · exact execute_answers_next _ _

/-! ## One step (R90) -/

/-- Everything one instruction step can do: the fetch raises, the word is unknown, or one instruction runs. -/
theorem stepOnce_cases (s : State) :
    (addrMax < s.pc.toNat + 1 ∧ stepOnce s = .next (s.raise (.addressOutOfRange (max s.pc.toNat 0x1000)))) ∨
    (s.pc.toNat + 1 ≤ addrMax ∧ ∃ op, fetch s = .go op s ∧ (∃ e, decodeWord op = .error e) ∧
      stepOnce s = .next (s.advance.raise (.unknownOpcode op))) ∨
    (s.pc.toNat + 1 ≤ addrMax ∧ ∃ op i, fetch s = .go op s ∧ decodeWord op = .ok i ∧
      stepOnce s = exec i s.advance) := by
  by_cases h : s.pc.toNat + 1 ≤ addrMax
  · right
    have hf := fetch_in h
    cases hd : decodeWord (wordOfBytes (s.byteAt s.pc.toNat) (s.byteAt (s.pc.toNat + 1))) with
    | error e =>
      refine .inl ⟨h, _, hf, ⟨e, hd⟩, ?_⟩
      simp only [stepOnce, hf, execute, hd]
    | ok i =>
      refine .inr ⟨h, _, i, hf, hd, ?_⟩
      simp only [stepOnce, hf, execute, hd]
  · refine .inl ⟨by omega, ?_⟩
    simp only [stepOnce, fetch_out (show addrMax < s.pc.toNat + 1 by omega)]

/-- Everything a step can do: fault on a halted core, or execute one instruction and close its slot. -/
theorem step_cases (s : State) :
    (∃ e, s.status = .halted e ∧ step s = .fault (.coreHalted e)) ∨
    (s.status = .running ∧ ∃ t, stepOnce (s.setOut []) = .next t ∧ step s = .next (closeSlot t)) := by
  cases h : s.status with
  | halted e => exact .inl ⟨e, rfl, whenRunning_halted _ h⟩
  | running =>
    obtain ⟨t, ht⟩ := stepOnce_answers_next (s.setOut [])
    exact .inr ⟨rfl, t, ht, by rw [step, whenRunning_running _ h, ht, onNext_next]⟩

/-! ## The end of a slot (R269) -/

theorem closeSlot_halted {s : State} (h : s.isHalted = true) : closeSlot s = s.setSlot 0 := by
  simp [closeSlot, h]
theorem closeSlot_last {s : State} (h : s.isHalted = false) (hs : s.cfg.speed ≤ s.slot + 1) :
    closeSlot s = (tick s).setSlot 0 := by
  simp [closeSlot, h, hs]
theorem closeSlot_inner {s : State} (h : s.isHalted = false) (hs : s.slot + 1 < s.cfg.speed) :
    closeSlot s = s.setSlot (s.slot + 1) := by
  simp [closeSlot, h, show ¬ s.cfg.speed ≤ s.slot + 1 by omega]

/-- A property that the tick's fields and the slot cannot break, the end of a slot keeps. -/
theorem closeSlot_keeps {P : State → Prop} (s : State)
    (h1 : ∀ n, P (s.setSlot n)) (h2 : ∀ b c o n, P ((((s.setDt b).setSt c).setOut o).setSlot n)) :
    P (closeSlot s) := by
  unfold closeSlot
  split
  · exact h1 _
  · split
    · exact h2 _ _ _ _
    · exact h1 _

/-! ## Placing a word -/

/-- The word placed is the word the next step fetches. -/
theorem fetch_withFetchWord (s : State) (nbits w : Nat) :
    fetch (s.withFetchWord nbits w) = .go (BitVec.ofNat 16 (w % 2 ^ nbits)) (s.withFetchWord nbits w) := by
  have key : ∀ p : Half, p.toNat + 1 ≤ addrMax → ∀ op : Half,
      fetch { s with
        pc := p, status := .running,
        mem := Memory.writeList s.cfg.font s.mem p.toNat [highByte op, lowByte op] } =
      .go op { s with
        pc := p, status := .running,
        mem := Memory.writeList s.cfg.font s.mem p.toNat [highByte op, lowByte op] } := by
    intro p hp op
    rw [fetch_in hp]
    congr 1
    simp only [State.byteAt, Memory.read_writeList]
    simp
  unfold State.withFetchWord
  split
  · exact key _ (by assumption) _
  · exact key _ (by decide) _

end Sys2Proof.Machine
end

