-- ==== Sys2Proof/Laws/Run.lean ====
section
/-! SUPPORT. Runs of the machine, one step at a time. -/

namespace Sys2Proof.Machine

@[simp] theorem run_zero (s : State) : run 0 s = .next s := rfl

/-- A run of any machine whose first step goes on. -/
theorem coreRun_next (M : Host.Core) (k : Nat) {s t : M.State} (h : M.step s = .next t) :
    M.run (k + 1) s = M.run k t := by
  rw [Host.Core.run, h]

/-- A run of any machine whose first step faults. -/
theorem coreRun_fault (M : Host.Core) (k : Nat) {s : M.State} {r : M.Fault} (h : M.step s = .fault r) :
    M.run (k + 1) s = .fault r := by
  rw [Host.Core.run, h]

/-- A run whose first step goes on. -/
theorem run_succ_next {s t : State} (k : Nat) (h : step s = .next t) : run (k + 1) s = run k t :=
  coreRun_next Sys2Proof.core k h

/-- A run whose first step faults ends there. -/
theorem run_succ_fault {s : State} {r : Fault} (k : Nat) (h : step s = .fault r) : run (k + 1) s = .fault r :=
  coreRun_fault Sys2Proof.core k h

/-- An invariant that every step keeps holds all along a run. -/
theorem run_keeps {P : State → Prop} (hP : ∀ s t, P s → step s = .next t → P t) (k : Nat) (s t : State)
    (hs : P s) (h : run k s = .next t) : P t := by
  induction k generalizing s with
  | zero => rw [run_zero, Host.Outcome.next.injEq] at h; exact h ▸ hs
  | succ k ih =>
    rcases step_cases s with ⟨e, -, he⟩ | ⟨-, u, -, hu⟩
    · rw [run_succ_fault k he] at h; cases h
    · rw [run_succ_next k hu] at h; exact ih _ (hP _ _ hs hu) h

end Sys2Proof.Machine
end

