-- ==== Sys2Proof/Laws/Sprite.lean ====
section
/-! SUPPORT. The cells under a sprite's bits: a cell after one more bit, and the plain form of a draw on a buffer on
which no sprite covers a cell twice (44_display.md R209). -/

namespace Sys2Proof.Machine

section
variable {s : State} {x0 y0 cx cy : Nat}

@[simp] theorem State.cellAfter_zero : s.cellAfter x0 y0 cx cy 0 = s.disp.cell cx cy := rfl

theorem State.cellAfter_lands {k : Nat} (h : s.bitLands x0 y0 k cx cy) :
    s.cellAfter x0 y0 cx cy (k + 1) = !s.cellAfter x0 y0 cx cy k := if_pos h

theorem State.cellAfter_misses {k : Nat} (h : ¬ s.bitLands x0 y0 k cx cy) :
    s.cellAfter x0 y0 cx cy (k + 1) = s.cellAfter x0 y0 cx cy k := if_neg h

/-- A cell no bit falls on keeps its value. -/
theorem State.cellAfter_untouched {count : Nat} (h : ∀ k, k < count → ¬ s.bitLands x0 y0 k cx cy) :
    s.cellAfter x0 y0 cx cy count = s.disp.cell cx cy := by
  induction count with
  | zero => rfl
  | succ n ih =>
    rw [State.cellAfter_misses (h n n.lt_succ_self)]
    exact ih fun k hk => h k (by omega)

/-- Two bits of a sprite that fall on one cell are one bit, where the buffer is at least as large as the sprite. -/
theorem State.bitLands_unique {n j k : Nat} (hW : 8 ≤ s.cfg.displayW) (hH : n ≤ s.cfg.displayH) (hj : j < 8 * n)
    (hk : k < 8 * n) (h : s.bitLands x0 y0 j cx cy) (h' : s.bitLands x0 y0 k cx cy) : j = k := by
  obtain ⟨-, hx, hy⟩ := h
  obtain ⟨-, hx', hy'⟩ := h'
  have hcol : j % 8 = k % 8 := by
    unfold wrapOnce at hx hx'; split at hx <;> split at hx' <;> omega
  have hrow : j / 8 = k / 8 := by
    unfold wrapOnce at hy hy'; split at hy <;> split at hy' <;> omega
  omega

/-- Up to a bit that falls on a cell, no other has, where the buffer is at least as large as the sprite. -/
theorem State.cellAfter_before {n k : Nat} (hW : 8 ≤ s.cfg.displayW) (hH : n ≤ s.cfg.displayH) (hk : k < 8 * n)
    (h : s.bitLands x0 y0 k cx cy) : s.cellAfter x0 y0 cx cy k = s.disp.cell cx cy :=
  State.cellAfter_untouched fun j hj h' => by
    have := State.bitLands_unique hW hH (by omega) hk h' h
    omega

/-- A cell some bit falls on is inverted, where the buffer is at least as large as the sprite. -/
theorem State.cellAfter_touched {n count : Nat} (hW : 8 ≤ s.cfg.displayW) (hH : n ≤ s.cfg.displayH)
    (hc : count ≤ 8 * n) (h : ∃ k, k < count ∧ s.bitLands x0 y0 k cx cy) :
    s.cellAfter x0 y0 cx cy count = !s.disp.cell cx cy := by
  induction count with
  | zero => obtain ⟨k, hk, -⟩ := h; omega
  | succ m ih =>
    by_cases hm : s.bitLands x0 y0 m cx cy
    · rw [State.cellAfter_lands hm, State.cellAfter_before hW hH (by omega) hm]
    · obtain ⟨k, hk, hl⟩ := h
      have : k ≠ m := by rintro rfl; exact hm hl
      rw [State.cellAfter_misses hm, ih (by omega) ⟨k, by omega, hl⟩]
end

/-- The plain form of a draw: each cell under a bit is inverted and every other keeps its value. -/
theorem Drawn.first {s t : State} {x0 y0 n count : Nat} (h : Drawn s t x0 y0 count) (hW : 8 ≤ s.cfg.displayW)
    (hH : n ≤ s.cfg.displayH) (hc : count ≤ 8 * n) : DrawnFirst s t x0 y0 count :=
  ⟨h.1, fun cx cy hx hy =>
    ⟨fun hl => by rw [h.2 cx cy hx hy, State.cellAfter_touched hW hH hc hl],
     fun hl => by
      rw [h.2 cx cy hx hy, State.cellAfter_untouched fun k hk hk' => hl ⟨k, hk, hk'⟩]⟩⟩

/-- The plain form of a collision: some bit falls on a lit cell. -/
theorem State.erases_iff {s : State} {x0 y0 n count : Nat} (hW : 8 ≤ s.cfg.displayW) (hH : n ≤ s.cfg.displayH)
    (hc : count ≤ 8 * n) : s.Erases x0 y0 count ↔
      ∃ k cx cy, k < count ∧ s.bitLands x0 y0 k cx cy ∧ s.disp.cell cx cy = true := by
  unfold State.Erases
  refine exists_congr fun k => exists_congr fun cx => exists_congr fun cy => ?_
  refine and_congr_right fun hk => and_congr_right fun hl => ?_
  rw [State.cellAfter_before hW hH (by omega) hl]

end Sys2Proof.Machine
end

