-- ==== Sys2Proof/Tests/Slice0.lean ====
section
/-! SUPPORT. Own tests: well-formedness smoke, decoding of words written out from the spec's encodings, single steps
against the spec's vectors (95_test_vectors.md, named in each comment), and a witness for every statement with hypotheses. -/

namespace Sys2Proof.Tests

open Sys2Proof.Machine

/-! ## A small state to start from -/

/-- The parameters of the vectors, with SPEED 4 and a tone of 440. -/
def cfg : Config :=
  { displayW := 64, displayH := 32, stackLimit := none, speed := 4, toneHz := 440, font := Config.defaultFont }

/-- The vectors' start state: the reset state. -/
def base : State := { State.reset with cfg := cfg }

/-- Some registers set. -/
def withRegs (s : State) (l : List (Reg × Byte)) : State := l.foldl (fun t p => t.setReg p.1 p.2) s

/-- `base` with some registers set. -/
def regs (l : List (Reg × Byte)) : State := withRegs base l

/-- `base` with bytes stored from an address upwards. -/
def bytesAt (a : Nat) (l : List Byte) : State := base.setMem (Memory.writeList cfg.font [] a l)

/-- `base` about to fetch a word at `p`. -/
def wordAt (p : Half) (op : Half) : State := (bytesAt p.toNat [highByte op, lowByte op]).setPc p

/-- The outcome is a next state of which `p` holds. -/
def next (o : Host.Outcome State Fault Refusal) (p : State → Bool) : Bool :=
  match o with
  | .next t => p t
  | .fault _ => false
  | .refused _ => false

/-- A state some outcome leaves, for a witness. -/
def nextOf (o : Host.Outcome State Fault Refusal) : State :=
  match o with
  | .next t => t
  | .fault _ => base
  | .refused _ => base

/-- The 14 cells of glyph 0 drawn at the origin (D9). -/
def glyphZero : List (Nat × Nat) :=
  [(0, 0), (1, 0), (2, 0), (3, 0), (0, 1), (3, 1), (0, 2), (3, 2), (0, 3), (3, 3)] ++
  [(0, 4), (1, 4), (2, 4), (3, 4)]

/-- How many cells are lit. -/
def litCells (d : Display) : Nat := (d.map fun row => row.count true).sum

/-! ## Well-formedness: each check refuses an ill-formed term -/

theorem test_wf_accepts : cfg.wellFormed = true ∧ imageFits [0x60, 0x05] = true := by decide
theorem test_wf_width_zero : ({ cfg with displayW := 0 } : Config).displayOk = false := by decide
theorem test_wf_height_zero : ({ cfg with displayH := 0 } : Config).displayOk = false := by decide
theorem test_wf_limit_zero : ({ cfg with stackLimit := some 0 } : Config).stackLimitOk = false := by decide
theorem test_wf_speed_zero : ({ cfg with speed := 0 } : Config).speedOk = false := by decide
theorem test_wf_tone_zero : ({ cfg with toneHz := 0 } : Config).toneOk = false := by decide
theorem test_wf_image_too_long : imageFits (List.replicate 3585 0) = false := by
  rw [imageFits, List.length_replicate]; decide
theorem test_wf_image_longest : imageFits (List.replicate 3584 0) = true := by
  rw [imageFits, List.length_replicate]; decide
theorem test_wf_instr : (Instr.shl 1 2).wellFormed = true := by decide

/-! ## Decoding: every constructor, its word written bit by bit from R83 -/

theorem test_decode_control :
    decodeWord 0b0000000011101110 = .ok .ret ∧ decodeWord 0b0001101010111100 = .ok (.jp 0xABC) ∧
    decodeWord 0b0010001100000000 = .ok (.call 0x300) ∧ decodeWord 0b0011001101000010 = .ok (.seImm 3 0x42) ∧
    decodeWord 0b0100001101000010 = .ok (.sneImm 3 0x42) ∧ decodeWord 0b0101000100100000 = .ok (.seReg 1 2) ∧
    decodeWord 0b1001000100100000 = .ok (.sneReg 1 2) ∧ decodeWord 0b1011001100000000 = .ok (.jpV0 0x300) := by decide

theorem test_decode_alu :
    decodeWord 0b0110101011111111 = .ok (.ldImm 10 0xFF) ∧ decodeWord 0b0111000000000001 = .ok (.addImm 0 0x01) ∧
    decodeWord 0b1000000100100000 = .ok (.ldReg 1 2) ∧ decodeWord 0b1000000100100001 = .ok (.or 1 2) ∧
    decodeWord 0b1000000100100010 = .ok (.and 1 2) ∧ decodeWord 0b1000000100100011 = .ok (.xor 1 2) ∧
    decodeWord 0b1000111100100100 = .ok (.addReg 15 2) ∧ decodeWord 0b1000000111110101 = .ok (.sub 1 15) ∧
    decodeWord 0b1000000100100110 = .ok (.shr 1 2) ∧ decodeWord 0b1000000100100111 = .ok (.subn 1 2) ∧
    decodeWord 0b1000000100101110 = .ok (.shl 1 2) ∧ decodeWord 0b1100001000001111 = .ok (.rnd 2 0x0F) := by decide

theorem test_decode_memory :
    decodeWord 0b1010111111111111 = .ok (.ldI 0xFFF) ∧ decodeWord 0b1111001000011110 = .ok (.addI 2) ∧
    decodeWord 0b1111000000101001 = .ok (.ldF 0) ∧ decodeWord 0b1111010100110011 = .ok (.ldB 5) ∧
    decodeWord 0b1111001001010101 = .ok (.ldMemVx 2) ∧ decodeWord 0b1111000101100101 = .ok (.ldVxMem 1) := by decide

theorem test_decode_display :
    decodeWord 0b0000000011100000 = .ok .cls ∧ decodeWord 0b1101000000010101 = .ok (.drw 0 1 5) := by decide

theorem test_decode_timers_keys :
    decodeWord 0b1111001100000111 = .ok (.ldVxDt 3) ∧ decodeWord 0b1111000100010101 = .ok (.ldDtVx 1) ∧
    decodeWord 0b1111001000011000 = .ok (.ldStVx 2) ∧ decodeWord 0b1110000010011110 = .ok (.skp 0) ∧
    decodeWord 0b1110000110100001 = .ok (.sknp 1) ∧ decodeWord 0b1111001100001010 = .ok (.ldVxK 3) := by decide

/-- E3, E4, E5, E7, E8: words of no row. -/
theorem test_decode_unknown :
    [0x0000, 0x00E1, 0x0123, 0x00FF, 0x5121, 0x9001, 0x8008, 0x800D, 0x800F, 0xE09F, 0xF000, 0xF0FF, 0xF030].all
      (fun op => decodeWord op == .error (.unknown op)) = true := by decide

/-- E10: bytes 12 34 are the word 0x1234. -/
theorem test_decode_big_endian :
    decode [0x12, 0x34] = .ok (.jp 0x234, []) ∧ decode [0x12] = .error .truncated ∧
    decodeTableWord 16 0x1234 = some (.jp 0x234) ∧ decodeTableWord 16 0x5121 = none := by decide

/-! ## Control flow -/

/-- F2. -/
theorem test_ret : next (exec .ret ((base.setPc 0x304).setStack [0x202]))
    (fun t => t.pc == 0x202 && t.stack == []) = true := by decide
/-- F1, by a step: pc holds `p + 2`. -/
theorem test_ret_empty : next (step (wordAt 0x200 0x00EE))
    (fun t => t.status == .halted .stackUnderflow && t.pc == 0x202 && t.stack == []) = true := by decide
/-- F3. -/
theorem test_jp : next (step (wordAt 0x200 0x1ABC)) (fun t => t.pc == 0xABC) = true := by decide
/-- F5. -/
theorem test_call : next (step (wordAt 0x200 0x2300)) (fun t => t.pc == 0x300 && t.stack == [0x202]) = true := by decide
/-- F6. -/
theorem test_call_full :
    next (exec (.call 0x300) { (base.setPc 0x202).setStack [0x202, 0x202] with cfg := { cfg with stackLimit := some 2 } })
      (fun t => t.status == .halted .stackOverflow && t.pc == 0x202 && t.stack.length == 2) = true := by decide
/-- F8, F9. -/
theorem test_se_imm :
    next (exec (.seImm 3 0x42) ((regs [(3, 0x42)]).setPc 0x202)) (fun t => t.pc == 0x204) = true ∧
    next (exec (.seImm 3 0x42) ((regs [(3, 0x41)]).setPc 0x202)) (fun t => t.pc == 0x202) = true := by decide
/-- F10, F11. -/
theorem test_sne_imm :
    next (exec (.sneImm 3 0x42) ((regs [(3, 0x41)]).setPc 0x202)) (fun t => t.pc == 0x204) = true ∧
    next (exec (.sneImm 3 0x42) ((regs [(3, 0x42)]).setPc 0x202)) (fun t => t.pc == 0x202) = true := by decide
/-- F12. -/
theorem test_se_reg : next (exec (.seReg 1 2) ((regs [(1, 7), (2, 7)]).setPc 0x202)) (fun t => t.pc == 0x204) = true := by
  decide
/-- F13, F14. -/
theorem test_sne_reg :
    next (exec (.sneReg 1 2) ((regs [(1, 7), (2, 7)]).setPc 0x202)) (fun t => t.pc == 0x202) = true ∧
    next (exec (.sneReg 1 2) ((regs [(1, 7), (2, 8)]).setPc 0x202)) (fun t => t.pc == 0x204) = true := by decide
/-- F17, F18. -/
theorem test_jp_v0 :
    next (exec (.jpV0 0x300) (regs [(0, 0x10)])) (fun t => t.pc == 0x310) = true ∧
    next (exec (.jpV0 0xFFF) (regs [(0, 0xFF)])) (fun t => t.pc == 0x10FE) = true := by decide

/-! ## Arithmetic and logic -/

/-- A1. -/
theorem test_ld_imm : next (exec (.ldImm 10 0xFF) base) (fun t => t.reg 10 == 0xFF && t.reg 9 == 0) = true := by decide
/-- A2, A3. -/
theorem test_add_imm :
    next (exec (.addImm 0 0x01) (regs [(0, 0xFF)])) (fun t => t.reg 0 == 0x00 && t.reg 15 == 0) = true ∧
    next (exec (.addImm 15 0x05) (regs [(15, 0xFE)])) (fun t => t.reg 15 == 0x03) = true := by decide
/-- A4. -/
theorem test_ld_reg : next (exec (.ldReg 1 2) (regs [(2, 0x5A)])) (fun t => t.reg 1 == 0x5A && t.reg 2 == 0x5A) = true := by
  decide
/-- A5. -/
theorem test_or : next (exec (.or 1 2) (regs [(1, 0xF0), (2, 0x0F), (15, 7)]))
    (fun t => t.reg 1 == 0xFF && t.reg 15 == 7) = true := by decide
/-- A6. -/
theorem test_and : next (exec (.and 1 2) (regs [(1, 0xF0), (2, 0x3C)])) (fun t => t.reg 1 == 0x30) = true := by decide
/-- A7. -/
theorem test_xor : next (exec (.xor 1 2) (regs [(1, 0xF0), (2, 0x3C)])) (fun t => t.reg 1 == 0xCC) = true := by decide
/-- A8, A10. -/
theorem test_add :
    next (exec (.addReg 1 1) (regs [(1, 0x90)])) (fun t => t.reg 1 == 0x20 && t.reg 15 == 1) = true ∧
    next (exec (.addReg 1 15) (regs [(1, 0x10), (15, 0xF5)])) (fun t => t.reg 1 == 0x05 && t.reg 15 == 1) = true := by decide
/-- A9, A11. -/
theorem test_add_to_vf :
    next (exec (.addReg 15 2) (regs [(15, 0x10), (2, 0xF5)])) (fun t => t.reg 15 == 0x05) = true ∧
    next (exec (.addReg 15 15) (regs [(15, 0x90)])) (fun t => t.reg 15 == 0x20) = true := by decide
/-- S2. -/
theorem test_sub :
    next (exec (.sub 1 2) (regs [(1, 5), (2, 5), (15, 9)])) (fun t => t.reg 1 == 0 && t.reg 15 == 0) = true ∧
    next (exec (.sub 1 2) (regs [(1, 3), (2, 5)])) (fun t => t.reg 1 == 0xFE && t.reg 15 == 0) = true := by decide
/-- A12, A13, A14. -/
theorem test_sub_vf :
    next (exec (.sub 1 15) (regs [(1, 5), (15, 3)])) (fun t => t.reg 1 == 0x04 && t.reg 15 == 1) = true ∧
    next (exec (.sub 15 2) (regs [(15, 9), (2, 3)])) (fun t => t.reg 15 == 0xFE) = true ∧
    next (exec (.sub 15 15) (regs [(15, 7)])) (fun t => t.reg 15 == 0x00) = true := by decide
/-- A16. -/
theorem test_shr : next (exec (.shr 1 2) (regs [(1, 0x01), (2, 0xFF)]))
    (fun t => t.reg 1 == 0x00 && t.reg 15 == 1 && t.reg 2 == 0xFF) = true := by decide
/-- A17. -/
theorem test_shr_vf : next (exec (.shr 15 15) (regs [(15, 0xFF)])) (fun t => t.reg 15 == 0x00) = true := by decide
/-- A18, A19. -/
theorem test_subn :
    next (exec (.subn 1 2) (regs [(1, 3), (2, 5)])) (fun t => t.reg 1 == 0x02 && t.reg 15 == 1) = true ∧
    next (exec (.subn 1 2) (regs [(1, 5), (2, 3)])) (fun t => t.reg 1 == 0xFE && t.reg 15 == 0) = true := by decide
/-- A20, A21, A22. -/
theorem test_subn_vf :
    next (exec (.subn 1 15) (regs [(1, 2), (15, 9)])) (fun t => t.reg 1 == 0xFF && t.reg 15 == 1) = true ∧
    next (exec (.subn 15 2) (regs [(15, 2), (2, 9)])) (fun t => t.reg 15 == 0x08) = true ∧
    next (exec (.subn 15 15) (regs [(15, 7)])) (fun t => t.reg 15 == 0x00) = true := by decide
/-- S3, A23. -/
theorem test_shl :
    next (exec (.shl 1 0) (regs [(1, 0x81)])) (fun t => t.reg 1 == 0x02 && t.reg 15 == 1) = true ∧
    next (exec (.shl 1 0) (regs [(1, 0x80)])) (fun t => t.reg 1 == 0x00 && t.reg 15 == 1) = true := by decide
/-- A24, A25. -/
theorem test_shl_vf :
    next (exec (.shl 15 15) (regs [(15, 0x80)])) (fun t => t.reg 15 == 0x02) = true ∧
    next (exec (.shl 15 15) (regs [(15, 0x7F)])) (fun t => t.reg 15 == 0x00) = true := by decide
/-- A28, under every draw; the next draw is another one. -/
theorem test_rnd : next (exec (.rnd 2 0x00) (regs [(2, 0xAB)])) (fun t => t.reg 2 == 0x00 && t.draws == 1) = true := by
  simp [exec, execRnd, next, Flow.bind, Flow.finish, Flow.toState, randomByte, State.setReg, State.reg, State.setDraws,
    regs, withRegs, base, State.reset]

/-! ## Index register and memory -/

/-- M1. -/
theorem test_ld_i : next (exec (.ldI 0xFFF) base) (fun t => t.i == 0x0FFF) = true := by decide
/-- M3, M4. -/
theorem test_add_i :
    next (exec (.addI 1) ((regs [(1, 1), (15, 7)]).setI 0x0FFF)) (fun t => t.i == 0x1000 && t.reg 15 == 7) = true ∧
    next (exec (.addI 1) ((regs [(1, 1)]).setI 0xFFFF)) (fun t => t.i == 0x0000 && t.reg 15 == 0) = true := by decide
/-- M6, M7. -/
theorem test_ld_f :
    next (exec (.ldF 1) (regs [(1, 0x10)])) (fun t => t.i == 0x0050) = true ∧
    next (exec (.ldF 1) (regs [(1, 0xFF)])) (fun t => t.i == 0x04FB) = true := by decide
/-- S8. -/
theorem test_ld_b : next (exec (.ldB 4) ((regs [(4, 157)]).setI 0x300))
    (fun t => t.byteAt 0x300 == 1 && t.byteAt 0x301 == 5 && t.byteAt 0x302 == 7) = true := by decide
/-- M10. -/
theorem test_ld_b_edge : next (exec (.ldB 5) ((regs [(5, 255)]).setI 0xFFE))
    (fun t => t.byteAt 0xFFE == 2 && t.byteAt 0xFFF == 5 && t.status == .halted (.addressOutOfRange 0x1000)) = true := by decide
/-- M11, M17. -/
theorem test_store :
    next (exec (.ldMemVx 1) ((regs [(0, 0x11), (1, 0x22), (2, 0x33)]).setI 0x300))
      (fun t => t.byteAt 0x300 == 0x11 && t.byteAt 0x301 == 0x22 && t.byteAt 0x302 == 0 && t.i == 0x300) = true ∧
    next (exec (.ldMemVx 0) (regs [(0, 0xAB)])) (fun t => t.byteAt 0x000 == 0xAB) = true := by decide
/-- M13. -/
theorem test_store_edge : next (exec (.ldMemVx 2) ((regs [(0, 1), (1, 2), (2, 3)]).setI 0xFFE))
    (fun t => t.byteAt 0xFFE == 1 && t.byteAt 0xFFF == 2 && t.i == 0xFFE &&
      t.status == .halted (.addressOutOfRange 0x1000)) = true := by decide
/-- M14. -/
theorem test_load : next (exec (.ldVxMem 2) ((bytesAt 0x300 [1, 5, 7]).setI 0x300))
    (fun t => t.reg 0 == 1 && t.reg 1 == 5 && t.reg 2 == 7 && t.i == 0x300) = true := by decide
/-- M15. -/
theorem test_load_edge :
    next (exec (.ldVxMem 2) (withRegs ((bytesAt 0xFFE [0xAA, 0xBB]).setI 0xFFE) [(0, 9), (1, 9), (2, 9)]))
      (fun t => t.reg 0 == 0xAA && t.reg 1 == 0xBB && t.reg 2 == 9 &&
        t.status == .halted (.addressOutOfRange 0x1000)) = true := by decide

/-! ## Display -/

/-- D18. -/
theorem test_cls : next (exec .cls (base.setDisp (base.disp.setCell 5 5 true)))
    (fun t => !t.disp.cell 5 5 && t.disp.length == 32) = true := by decide
/-- D9, D10: the glyph at the origin, and the same cells from (64, 32). -/
theorem test_drw :
    next (exec (.drw 0 0 5) (regs [(15, 1)])) (fun t => litCells t.disp == 14 &&
      glyphZero.all (fun c => t.disp.cell c.1 c.2) && t.reg 15 == 0) = true ∧
    next (exec (.drw 0 1 5) (regs [(0, 0x40), (1, 0x20)])) (fun t => litCells t.disp == 14 &&
      glyphZero.all (fun c => t.disp.cell c.1 c.2)) = true := by decide
/-- P5d: a draw that leaves the buffer part-way keeps its toggles and does not write VF. -/
theorem test_drw_part_way : next (exec (.drw 0 1 1) (regs [(0, 126), (15, 7)]))
    (fun t => t.status == .halted (.dimension (.x 128)) && t.disp.cell 62 0 && t.disp.cell 63 0 &&
      litCells t.disp == 2 && t.reg 15 == 7) = true := by decide
/-- The single wrap's vectors (95_test_vectors.md 2.5). -/
theorem test_wrap1 :
    [-65, -64, -1, 0, 63, 64, 127, 128].map (fun c => wrap1 c 64) =
      [none, some 0, some 63, some 0, some 63, some 0, some 63, none] ∧
    [31, 32, 63, 64].map (fun c => wrap1 c 32) = [some 31, some 0, some 31, none] := by decide

/-! ## Timers and keys -/

/-- T1. -/
theorem test_ld_vx_dt : next (exec (.ldVxDt 3) (base.setDt 0x3C)) (fun t => t.reg 3 == 0x3C) = true := by decide
/-- T2. -/
theorem test_ld_dt : next (exec (.ldDtVx 1) (regs [(1, 0x3C)])) (fun t => t.dt == 0x3C && t.st == 0) = true := by decide
/-- T3. -/
theorem test_ld_st : next (exec (.ldStVx 2) (regs [(2, 5)])) (fun t => t.st == 5 && t.dt == 0) = true := by decide
/-- T7. -/
theorem test_keys :
    next (step (wordAt 0x200 0xE19E)) (fun t => t.pc == 0x202) = true ∧
    next (step (wordAt 0x200 0xE1A1)) (fun t => t.pc == 0x202) = true ∧
    next (step (wordAt 0x200 0xF30A)) (fun t => t.pc == 0x202 && t.reg 3 == 0) = true := by decide
/-- T4, T5, T6. -/
theorem test_tick :
    (tick base).out = [.stop, .render] ∧ (tick base).dt = 0 ∧ (tick base).st = 0 ∧
    (tick ((base.setDt 1).setSt 2)).out = [.play 440, .render] ∧ (tick ((base.setDt 1).setSt 2)).dt = 0 ∧
    (tick ((base.setDt 5).setSt 1)).out = [.stop, .render] ∧ (tick ((base.setDt 5).setSt 1)).dt = 4 := by decide

/-! ## Step, cycle and host -/

/-- E11. -/
theorem test_step_unknown : next (step (base.setPc 0xFFE))
    (fun t => t.status == .halted (.unknownOpcode 0x0000) && t.pc == 0x1000) = true := by decide
/-- E12, E13. -/
theorem test_step_fetch_edge :
    next (step (base.setPc 0xFFF)) (fun t => t.status == .halted (.addressOutOfRange 0x1000) && t.pc == 0xFFF) = true ∧
    next (step (base.setPc 0x1000)) (fun t => t.status == .halted (.addressOutOfRange 0x1000) && t.pc == 0x1000) = true := by
  decide
/-- E14. -/
theorem test_step_odd_pc : next (step (wordAt 0x201 0x6007)) (fun t => t.reg 0 == 7 && t.pc == 0x203) = true := by decide
/-- X1: the error's cycle runs no tick. -/
theorem test_cycle_error : next (cycle (bytesAt 0x200 [0x60, 0x05, 0xF0, 0x15, 0x00, 0xEE]))
    (fun t => t.status == .halted .stackUnderflow && t.pc == 0x206 && t.dt == 5 && t.out == []) = true := by decide
/-- S9, the first cycle at SPEED 1. -/
theorem test_cycle_one : next (cycle { bytesAt 0x200 [0x60, 0x05, 0x70, 0x03] with cfg := { cfg with speed := 1 } })
    (fun t => t.reg 0 == 5 && t.pc == 0x202 && t.out == [.stop, .render]) = true := by decide
/-- X2, X3. -/
theorem test_halted : step (base.raise .stackUnderflow) = .fault (.coreHalted .stackUnderflow) ∧
    (serve .cycle (base.raise .stackUnderflow)).1 = .notEnabled ∧
    (serve (.read 0 0) (base.raise .stackUnderflow)).1 = .cell false := by
  refine ⟨rfl, rfl, rfl⟩
/-- D6, D7. -/
theorem test_ports :
    (serve (.read 5 5) (serve (.set 5 5 true) base).2).1 = .cell true ∧
    (serve (.set 64 0 true) base).1 = .err (.dimension (.x 64)) ∧
    (serve (.set 64 0 true) base).2.status = .running := by decide
/-- X7. -/
theorem test_construct_width_zero :
    construct { cfg with displayW := 0 } [] = .error (.dimension (.init 0 32)) := by rfl
/-- The host's entry: a word placed on reset runs as the first instruction. -/
theorem test_with_fetch_word : next (step (State.reset.withFetchWord 16 0x6A5C))
    (fun t => t.reg 10 == 0x5C && t.pc == 0x202) = true := by decide

/-! ## Witnesses: states and operands that meet the hypotheses of each statement -/

theorem wit_EncodeInvertsDecode : decodeWord 0x812E = .ok (.shl 1 2) := by decide
theorem wit_OpcodeRowsNeverOverlap : (⟨0xF0FF, 0xF065⟩ : OpcodeRow) ∈ opcodeRows ∧ 0xF165#16 &&& 0xF0FF#16 = 0xF065#16 := by
  decide
/-- A word of each selecting mask, and a word of no row. -/
theorem wit_DecodeFollowsOpcodeMap :
    0x1ABC#16 &&& 0xF000#16 = 0x1000#16 ∧ 0x812E#16 &&& 0xF00F#16 = 0x800E#16 ∧ 0xE1A1#16 &&& 0xF0FF#16 = 0xE0A1#16 ∧
    (∀ r ∈ opcodeRows, 0x5121#16 &&& r.mask ≠ r.value) := by decide
theorem wit_StepExecutesFetchedInstruction :
    (wordAt 0xFFE 0x6A5C).status = .running ∧ (wordAt 0xFFE 0x6A5C).pc.toNat ≤ 0xFFE ∧
    decodeWord (wordAt 0xFFE 0x6A5C).wordAtPc = .ok (.ldImm 10 0x5C) := by decide
theorem wit_FetchOutsideMemoryHalts :
    base.status = .running ∧ 0xFFE < (base.setPc 0xFFF).pc.toNat ∧ 0xFFE < (base.setPc 0x1000).pc.toNat := by decide
theorem wit_UnknownWordHalts :
    (wordAt 0xFFE 0x5121).status = .running ∧ (wordAt 0xFFE 0x5121).pc.toNat ≤ 0xFFE ∧
    decodeWord (wordAt 0xFFE 0x5121).wordAtPc = .error (.unknown 0x5121) := by decide
theorem wit_HaltedCoreHasNoStep : (base.raise .stackUnderflow).status = .halted .stackUnderflow := rfl
theorem wit_TimersCountDownToZero : 0 < 1 ∧ ((base.setSt 1).st.toNat = 1) ∧ 1 < ((base.setSt 2).st.toNat) := by decide
/-- An error; the last but one slot; the last slot. -/
theorem wit_SlotEndsWithTickOrCount :
    ((base.raise .stackUnderflow).status = .halted .stackUnderflow) ∧
    ((base.setSlot 2).status = .running ∧ (base.setSlot 2).slot + 1 < (base.setSlot 2).cfg.speed) ∧
    ((base.setSlot 3).status = .running ∧ (base.setSlot 3).cfg.speed ≤ (base.setSlot 3).slot + 1) := by decide
/-- The hypotheses, and a cycle that ends in each way (`test_cycle_error`, `test_cycle_one`). -/
theorem wit_CycleIsSpeedSteps :
    base.status = .running ∧ base.slot = 0 ∧ 1 ≤ base.cfg.speed ∧
    next (cycle base) (fun t => t.isHalted) = true ∧
    next (cycle { bytesAt 0x200 [0x60, 0x05] with cfg := { cfg with speed := 1 } }) (fun t => !t.isHalted) = true := by decide
/-- A step inside the batch that moves a timer. -/
theorem wit_BatchInsideIsQuiet :
    (withRegs (wordAt 0x200 0xF115) [(1, 9)]).slot + 1 < cfg.speed ∧
    next (step (withRegs (wordAt 0x200 0xF115) [(1, 9)])) (fun t => t.dt == 9) = true ∧
    next (step (withRegs (wordAt 0x200 0xF118) [(1, 9)])) (fun t => t.st == 9) = true := by decide
/-- One instruction of each kind that raises. -/
theorem wit_OnlyListedErrorsHalt :
    wrap1 128 base.cfg.displayW = none ∧ wrap1 64 base.cfg.displayH = none ∧
    next (exec (.drw 1 0 1) (regs [(0, 0x40)])) (fun t => t.status == .halted (.dimension (.y 64))) = true ∧
    next (exec .ret base) (fun t => t.status != base.status) = true ∧
    next (exec (.ldB 0) (base.setI 0xFFE)) (fun t => t.status != base.status) = true ∧
    next (exec (.drw 0 0 1) (regs [(0, 0x80)])) (fun t => t.status != base.status) = true ∧
    next (exec (.drw 0 0 1) (base.setI 0x1000)) (fun t => t.status != base.status) = true ∧
    next (exec (.call 0) { base with cfg := { cfg with stackLimit := some 0 } }) (fun t => t.status != base.status) = true := by
  decide

theorem base_inv : base.Inv := by
  refine ⟨by decide, ⟨by decide, by decide⟩, ⟨by decide, fun a ha => ?_⟩, fun l hl => ?_, by decide, by decide⟩
  · cases ha
  · cases hl
theorem wit_StepKeepsInvariants : base.Inv ∧ step base = .next (nextOf (step base)) := ⟨base_inv, rfl⟩
theorem wit_ConstructMeetsInvariants : cfg.wellFormed = true ∧ construct cfg [] = .ok base := ⟨by decide, rfl⟩
/-- A register the instruction names least, next to one it does. -/
theorem wit_GeneralRegisterWriters :
    exec (.ldVxMem 14) base = .next (nextOf (exec (.ldVxMem 14) base)) ∧ writesReg (.ldVxMem 14) 15 = false ∧
    writesReg (.ldVxMem 14) 14 = true ∧ writesReg (.sub 1 2) 2 = false := ⟨rfl, by decide, by decide, by decide⟩
/-- The addresses on either side of the stored bytes. -/
theorem wit_MemoryWriters :
    exec (.ldB 0) (base.setI 0x300) = .next (nextOf (exec (.ldB 0) (base.setI 0x300))) ∧
    storesAt (.ldB 0) (base.setI 0x300) 0x2FF = false ∧ storesAt (.ldB 0) (base.setI 0x300) 0x303 = false ∧
    storesAt (.ldMemVx 0) (base.setI 0x300) 0x301 = false := ⟨rfl, by decide, by decide, by decide⟩
/-- One change of each component. -/
theorem wit_OtherStateWriters :
    next (exec (.ldI 0x300) base) (fun t => t.i != base.i) = true ∧
    next (exec (.call 0x300) base) (fun t => t.stack != base.stack) = true ∧
    next (exec (.ldDtVx 1) (regs [(1, 9)])) (fun t => t.dt != base.dt) = true ∧
    next (exec (.ldStVx 1) (regs [(1, 9)])) (fun t => t.st != base.st) = true ∧
    next (exec (.drw 0 0 5) base) (fun t => t.disp != base.disp) = true ∧
    next (exec (.rnd 0 0) base) (fun t => t.draws != base.draws) = true := by decide
theorem wit_PcAfterEachInstruction :
    base.status = .running ∧ next (exec (.jp 0xABC) base) (fun t => t.status == .running) = true ∧
    next (exec .ret base) (fun t => t.status != .running) = true := by decide
theorem wit_ReturnPopsOrUnderflows : (base.setStack [0x202]).stack = 0x202 :: [] ∧ base.stack = [] := by decide
theorem wit_CallPushesOrOverflows :
    base.cfg.stackLimit ≠ some base.stack.length ∧
    ({ base with cfg := { cfg with stackLimit := some 0 } } : State).cfg.stackLimit = some base.stack.length := by decide
theorem wit_CallThenReturnRestores : base.cfg.stackLimit ≠ some base.stack.length := by decide
theorem wit_SkipDistanceIsFour :
    (wordAt 0xFFE 0x3342).status = .running ∧ (wordAt 0xFFE 0x3342).pc.toNat ≤ 0xFFE ∧
    decodeWord (wordAt 0xFFE 0x3342).wordAtPc = .ok (.seImm 3 0x42) ∧
    decodeWord (wordAt 0xFFE 0x4342).wordAtPc = .ok (.sneImm 3 0x42) ∧
    decodeWord (wordAt 0xFFE 0x5120).wordAtPc = .ok (.seReg 1 2) ∧
    decodeWord (wordAt 0xFFE 0x9120).wordAtPc = .ok (.sneReg 1 2) := by decide
theorem wit_SkipsOnRegisters : (1 : BitVec 4) ≠ 0 ∧ (15 : BitVec 4) ≠ 0 := by decide
/-- The clauses of the flag statements: neither operand VF, one of them, both (`test_add` to `test_shl_vf`). -/
theorem wit_FlagClauses : (1 : Reg) ≠ 15 ∧ (2 : Reg) ≠ 15 ∧ (0 : Reg) ≠ 1 ∧ (15 : Reg) = 15 := by decide
theorem wit_MemoryReadsLatestWrite :
    0xFFF ≤ 0xFFF ∧ 0xFFF < 0x1000 ∧ 0x300 ≠ 0x301 ∧ Memory.wf base.cfg.font base.mem := by decide
/-- The last address that fits, and the first that does not. -/
theorem wit_DecimalDigits :
    (base.setI 0xFFD).i.toNat + 2 ≤ 0xFFF ∧ 0xFFF < (base.setI 0xFFE).i.toNat + 2 ∧ (base.setI 0xFFE).i.toNat + 1 ≤ 0xFFF ∧
    0xFFF < (base.setI 0x1000).i.toNat + 2 := by decide
theorem wit_RegistersStoredAndLoaded :
    (base.setI 0xFF0).i.toNat + (15 : Reg).val ≤ 0xFFF ∧ 0xFFF < (base.setI 0xFF1).i.toNat + (15 : Reg).val ∧
    (base.setI 0xFF1).i.toNat + (14 : Reg).val ≤ 0xFFF ∧ 0xFFF < (base.setI 0x1000).i.toNat + (0 : Reg).val := by decide
theorem wit_StoreIsSeenByFetch : 1 ≤ (1 : Reg).val ∧ (base.setI 0xFFE).i.toNat + (1 : Reg).val ≤ 0xFFF := by decide
theorem wit_ClearUnsetsEveryCell : exec .cls base = .next (nextOf (exec .cls base)) := rfl
/-- Each clause at the ends of its range, for a dimension of 64. -/
theorem wit_SingleWrapAcceptsOneDimension :
    (1 ≤ 64) ∧ ((0 : Int) ≤ 63 ∧ (63 : Int) < 64) ∧ ((64 : Int) ≤ 127 ∧ (127 : Int) < 2 * 64) ∧
    (-(64 : Int) ≤ -1 ∧ (-1 : Int) < 0) ∧ ((-65 : Int) < -64) ∧ (2 * (64 : Int) ≤ 128) := by decide
/-- A rejected column, a rejected row, a drawn cell (D3, D4, D1). -/
theorem wit_ToggleInvertsOneCell :
    Display.wf base.cfg.displayW base.cfg.displayH base.disp ∧ wrap1 128 base.cfg.displayW = none ∧
    wrap1 127 base.cfg.displayW ≠ none ∧ wrap1 64 base.cfg.displayH = none ∧
    wrap1 66 base.cfg.displayW = some 2 ∧ wrap1 63 base.cfg.displayH = some 31 := by decide
/-- Glyph 0 drawn from (64, 32), wrapped in both directions, over a lit cell. -/
def drawOver : State := (regs [(0, 0x40), (1, 0x20)]).setDisp (base.disp.setCell 0 0 true)

/-- The hypotheses of a whole draw, its collision, and a draw with none (D10, D16). -/
theorem wit_DrawInvertsSpriteCells :
    Display.wf drawOver.cfg.displayW drawOver.cfg.displayH drawOver.disp ∧ 8 ≤ drawOver.cfg.displayW ∧
    (5#4).toNat ≤ drawOver.cfg.displayH ∧
    (∀ k, k < 8 * (5#4).toNat → drawOver.bitFits (drawOver.reg 0).toNat (drawOver.reg 1).toNat k) ∧
    (drawOver.bitLands (drawOver.reg 0).toNat (drawOver.reg 1).toNat 0 0 0 ∧ drawOver.disp.cell 0 0 = true) ∧
    next (exec (.drw 0 1 5) drawOver) (fun t => t.reg 15 == 1 && !t.disp.cell 0 0) = true ∧
    (∀ cx, cx < 8 → ∀ cy, cy < 5 → base.disp.cell cx cy = false) := by decide

/-- A bad column after two good ones (P5d), a bad row (D13) and a bad address (D14), each the first bit that cannot be
drawn. -/
theorem wit_DrawStopsAtFirstBadBit :
    (2 < 8 * (1#4).toNat ∧ (∀ k, k < 2 → (regs [(0, 126)]).bitFits ((regs [(0, 126)]).reg 0).toNat 0 k) ∧
      ¬ (regs [(0, 126)]).bitFits ((regs [(0, 126)]).reg 0).toNat 0 2) ∧
    (0 < 8 * (5#4).toNat ∧ ¬ (regs [(1, 0x40)]).bitFits 0 ((regs [(1, 0x40)]).reg 1).toNat 0) ∧
    (8 < 8 * (2#4).toNat ∧ (∀ k, k < 8 → (base.setI 0xFFF).bitFits 0 0 k) ∧ ¬ (base.setI 0xFFF).bitFits 0 0 8) ∧
    Display.wf base.cfg.displayW base.cfg.displayH base.disp ∧ 8 ≤ base.cfg.displayW ∧
    (5#4).toNat ≤ base.cfg.displayH := by decide
/-- A buffer of 4 columns and 1 row, and a sprite row 0x88 whose two bits fall on one cell. -/
def narrow : State :=
  { (bytesAt 0x300 [0x88]).setI 0x300 with cfg := { cfg with displayW := 4, displayH := 1 }, disp := Display.blank 4 1 }

/-- R209, corner cases: the second toggle of a cell counts as an erase, since the first set it; and the same hypotheses on
a buffer narrower than a sprite, where the second bit is drawn, and where a later column is the first that cannot be. -/
theorem wit_DrawOnNarrowBuffer :
    Display.wf narrow.cfg.displayW narrow.cfg.displayH narrow.disp ∧
    (∀ k, k < 8 * (1#4).toNat → narrow.bitFits (narrow.reg 0).toNat (narrow.reg 0).toNat k) ∧
    (narrow.bitLands 0 0 4 0 0 ∧ narrow.cellAfter 0 0 0 0 4 = true) ∧
    next (exec (.drw 0 0 1) narrow) (fun t => !t.disp.cell 0 0 && t.reg 15 == 1) = true ∧
    ((∀ k, k < 4 → (narrow.setReg 0 4).bitFits ((narrow.setReg 0 4).reg 0).toNat ((narrow.setReg 0 4).reg 1).toNat k) ∧
      ¬ (narrow.setReg 0 4).bitFits ((narrow.setReg 0 4).reg 0).toNat ((narrow.setReg 0 4).reg 1).toNat 4) := by decide

theorem wit_ConstructPlacesImage :
    (List.replicate 3584 (0 : Byte)).length ≤ 3584 ∧ 3584 < (List.replicate 3585 (0 : Byte)).length ∧
    1 ≤ cfg.displayW ∧ 1 ≤ cfg.displayH ∧ ({ cfg with displayW := 0 } : Config).displayW = 0 := by
  simp only [List.length_replicate]; decide
/-- The corners inside the buffer, and the first coordinate outside it on each side. -/
theorem wit_HostPortsAreStrict :
    base.slot = 0 ∧ ((0 : Int) ≤ 63 ∧ (63 : Int) < base.cfg.displayW ∧ (0 : Int) ≤ 31 ∧ (31 : Int) < base.cfg.displayH) ∧
    ((-1 : Int) < 0 ∧ (base.cfg.displayW : Int) ≤ 64) ∧ ((base.cfg.displayH : Int) ≤ 32) ∧
    Display.wf base.cfg.displayW base.cfg.displayH base.disp := by decide
theorem wit_HostCallsBetweenCycles : (base.setSlot 3).slot ≠ 0 ∧ base.slot = 0 ∧ base.status = .running := by decide

end Sys2Proof.Tests
end

section
/-! PROOF. What each instruction does to the state, said once: an equation for every instruction that runs straight
through, and what the instructions that check, loop or raise can leave (40 to 45 of the spec, one meaning per rule). -/

namespace Sys2Proof.Machine

/-! ## Instructions that raise nothing -/

/-- A skip moves pc or leaves it (R118). -/
theorem State.skipIf_eq (s : State) (c : Bool) : s.skipIf c = s.setPc (if c then s.pc + 2 else s.pc) := by
  cases c <;> rfl

section
variable (s : State) (x y : Reg) (kk : Byte) (nnn : BitVec 12)

@[simp] theorem exec_cls : exec .cls s = .next (s.setDisp (Display.blank s.cfg.displayW s.cfg.displayH)) := rfl
@[simp] theorem exec_jp : exec (.jp nnn) s = .next (s.setPc (addrOperand nnn)) := rfl
@[simp] theorem exec_jpV0 : exec (.jpV0 nnn) s = .next (s.setPc (addrOperand nnn + wide (s.reg 0))) := rfl

@[simp] theorem exec_seImm :
    exec (.seImm x kk) s = .next (s.setPc (if s.reg x = kk then s.pc + 2 else s.pc)) := by
  simp [exec, execSeImm, State.skipIf_eq]
@[simp] theorem exec_sneImm :
    exec (.sneImm x kk) s = .next (s.setPc (if s.reg x = kk then s.pc else s.pc + 2)) := by
  simp [exec, execSneImm, State.skipIf_eq]
@[simp] theorem exec_seReg :
    exec (.seReg x y) s = .next (s.setPc (if s.reg x = s.reg y then s.pc + 2 else s.pc)) := by
  simp [exec, execSeReg, State.skipIf_eq]
@[simp] theorem exec_sneReg :
    exec (.sneReg x y) s = .next (s.setPc (if s.reg x = s.reg y then s.pc else s.pc + 2)) := by
  simp [exec, execSneReg, State.skipIf_eq]

@[simp] theorem exec_ldImm : exec (.ldImm x kk) s = .next (s.setReg x kk) := rfl
@[simp] theorem exec_addImm : exec (.addImm x kk) s = .next (s.setReg x (s.reg x + kk)) := rfl
@[simp] theorem exec_ldReg : exec (.ldReg x y) s = .next (s.setReg x (s.reg y)) := rfl
@[simp] theorem exec_or : exec (.or x y) s = .next (s.setReg x (s.reg x ||| s.reg y)) := rfl
@[simp] theorem exec_and : exec (.and x y) s = .next (s.setReg x (s.reg x &&& s.reg y)) := rfl
@[simp] theorem exec_xor : exec (.xor x y) s = .next (s.setReg x (s.reg x ^^^ s.reg y)) := rfl

@[simp] theorem exec_addReg : exec (.addReg x y) s =
    .next ((s.setReg Reg.vf (carryFlag (s.reg x) (s.reg y))).setReg x (s.reg x + s.reg y)) := rfl
@[simp] theorem exec_sub : exec (.sub x y) s =
    let s1 := s.setReg Reg.vf (greaterFlag (s.reg x) (s.reg y))
    .next (s1.setReg x (s1.reg x - s1.reg y)) := rfl
@[simp] theorem exec_shr : exec (.shr x y) s =
    let s1 := s.setReg Reg.vf (shiftOutRight (s.reg x))
    .next (s1.setReg x (s1.reg x >>> 1)) := rfl
@[simp] theorem exec_subn : exec (.subn x y) s =
    let s1 := s.setReg Reg.vf (greaterFlag (s.reg y) (s.reg x))
    .next (s1.setReg x (s1.reg y - s1.reg x)) := rfl
@[simp] theorem exec_shl : exec (.shl x y) s =
    let s1 := s.setReg Reg.vf (shiftOutLeft (s.reg x))
    .next (s1.setReg x (s1.reg x <<< 1)) := rfl
@[simp] theorem exec_rnd : exec (.rnd x kk) s =
    .next ((s.setDraws (s.draws + 1)).setReg x (Config.randomByte s.draws &&& kk)) := rfl

@[simp] theorem exec_ldI : exec (.ldI nnn) s = .next (s.setI (addrOperand nnn)) := rfl
@[simp] theorem exec_addI : exec (.addI x) s = .next (s.setI (s.i + wide (s.reg x))) := rfl
@[simp] theorem exec_ldF : exec (.ldF x) s = .next (s.setI (wide (s.reg x) * 5)) := rfl

@[simp] theorem exec_ldVxDt : exec (.ldVxDt x) s = .next (s.setReg x s.dt) := rfl
@[simp] theorem exec_ldDtVx : exec (.ldDtVx x) s = .next (s.setDt (s.reg x)) := rfl
@[simp] theorem exec_ldStVx : exec (.ldStVx x) s = .next (s.setSt (s.reg x)) := rfl
@[simp] theorem exec_skp : exec (.skp x) s = .next s := rfl
@[simp] theorem exec_sknp : exec (.sknp x) s = .next s := rfl
@[simp] theorem exec_ldVxK : exec (.ldVxK x) s = .next s := rfl
end

/-! ## Call and return (R110, R112) -/

section
variable {s t : State}

/-- RET pops into pc, or underflows and writes the status alone. -/
theorem exec_ret_cases (h : exec .ret s = .next t) :
    (∃ a rest, s.stack = a :: rest ∧ t = (s.setStack rest).setPc a) ∨
    (s.stack = [] ∧ t = s.raise .stackUnderflow) := by
  obtain ⟨a, rest, hs, e⟩ | ⟨hs, e⟩ := popReturn_cases s
  · exact .inl ⟨a, rest, hs, by simpa [exec, execRet, e] using h.symm⟩
  · exact .inr ⟨hs, by simpa [exec, execRet, e] using h.symm⟩

/-- CALL pushes the advanced pc and jumps, or overflows and writes the status alone. -/
theorem exec_call_cases {nnn : BitVec 12} (h : exec (.call nnn) s = .next t) :
    (s.stackFull = false ∧ t = (s.setStack (s.pc :: s.stack)).setPc (addrOperand nnn)) ∨
    (s.stackFull = true ∧ t = s.raise .stackOverflow) := by
  obtain ⟨hs, e⟩ | ⟨hs, e⟩ := pushReturn_cases s.pc s
  · exact .inl ⟨hs, by simpa [exec, execCall, e] using h.symm⟩
  · exact .inr ⟨hs, by simpa [exec, execCall, e] using h.symm⟩
end

/-! ## Loops and errors

An error may end a loop part way, with the writes made so far standing (R267). What the loops of Fx33, Fx55, Fx65 and Dxyn
can leave is therefore said by a relation that every access keeps and that taking an error keeps. -/

section
variable {α κ σ : Type}

/-- A property of the state that taking an error keeps holds of the state an instruction leaves. -/
theorem Flow.toState_keeps {P : State → Prop} (hP : ∀ s e, P s → P (s.raise e)) (m : Flow α) (h : P m.state) :
    P m.toState := by
  obtain e | ⟨_, e⟩ := m.toState_cases <;> rw [e]
  · exact h
  · exact hP _ _ h

/-- A property of the state that the body of a loop keeps for each element of its list, the loop keeps. -/
theorem Flow.fold_keeps_of_mem {P : State → Prop} (f : σ → κ → State → Flow σ) (ks : List κ)
    (hf : ∀ a k s, k ∈ ks → P s → P (f a k s).state) (acc : σ) (s : State) (hs : P s) :
    P (Flow.fold f ks acc s).state := by
  induction ks generalizing acc s with
  | nil => exact hs
  | cons k ks ih =>
    exact Flow.bind_keeps _ _ (hf acc k s List.mem_cons_self hs) fun a t ht =>
      ih (fun a k s hk => hf a k s (List.mem_cons_of_mem _ hk)) a t ht
end

/-! ### Stores: Fx33 and Fx55 (R183, R184) -/

/-- `t` is `s` after byte stores, an error taken or not: only memory and status may differ, and memory stays canonical. -/
def State.Stored (s t : State) : Prop :=
  ∃ m q, t = { s with mem := m, status := q } ∧ (Memory.wf s.cfg.font s.mem → Memory.wf s.cfg.font m)

section
variable {s t : State}

theorem State.Stored.refl (s : State) : s.Stored s := ⟨s.mem, s.status, rfl, id⟩

theorem State.Stored.raise (e : CoreError) : s.Stored t → s.Stored (t.raise e) := by
  rintro ⟨m, q, rfl, hm⟩
  exact ⟨m, .halted e, rfl, hm⟩

theorem State.Stored.memWrite (a : Nat) (b : Byte) (h : s.Stored t) : s.Stored (memWrite a b t).state := by
  obtain ⟨ha, e⟩ | ⟨-, e⟩ := memWrite_cases a b t <;> rw [e]
  · obtain ⟨m, q, rfl, hm⟩ := h
    exact ⟨_, q, rfl, fun hs => Memory.wf_write _ b ha (hm hs)⟩
  · exact h

theorem exec_ldB_stored {x : Reg} (h : exec (.ldB x) s = .next t) : s.Stored t := by
  rw [← Host.Outcome.next.inj h]
  refine Flow.toState_keeps (fun _ e => .raise e) _ ?_
  exact Flow.bind_keeps _ _ ((State.Stored.refl s).memWrite _ _) fun _ _ h1 =>
    Flow.bind_keeps _ _ (h1.memWrite _ _) fun _ _ h2 => h2.memWrite _ _

theorem exec_ldMemVx_stored {x : Reg} (h : exec (.ldMemVx x) s = .next t) : s.Stored t := by
  rw [← Host.Outcome.next.inj h]
  refine Flow.toState_keeps (fun _ e => .raise e) _ ?_
  exact Flow.fold_keeps _ (fun _ _ _ hu => hu.memWrite _ _) _ _ _ (.refl s)
end

/-! ### Loads: Fx65 (R185) -/

/-- `t` is `s` after loads of registers up to `x`, an error taken or not: only those registers and status may differ. -/
def State.Loaded (x : Reg) (s t : State) : Prop :=
  ∃ v q, t = { s with v := v, status := q } ∧ ∀ r : Reg, x < r → t.reg r = s.reg r

/-- The registers Fx65 and Fx55 go through are those up to Vx. -/
theorem le_of_mem_regsUpTo {x k : Reg} (h : k ∈ regsUpTo x) : k ≤ x := by
  obtain ⟨j, hj, rfl⟩ := List.mem_take_iff_getElem.1 h
  simp only [List.getElem_finRange, Fin.le_def, Fin.val_cast]
  omega

section
variable {s t : State} {x : Reg}

theorem State.Loaded.refl (x : Reg) (s : State) : s.Loaded x s := ⟨s.v, s.status, rfl, fun _ _ => rfl⟩

theorem State.Loaded.raise (e : CoreError) : s.Loaded x t → s.Loaded x (t.raise e) := by
  rintro ⟨v, q, rfl, hv⟩
  exact ⟨v, .halted e, rfl, hv⟩

theorem State.Loaded.setReg {k : Reg} (b : Byte) (hk : k ≤ x) : s.Loaded x t → s.Loaded x (t.setReg k b) := by
  rintro ⟨v, q, rfl, hv⟩
  refine ⟨_, q, rfl, fun r hr => ?_⟩
  rw [State.reg_setReg_other _ _ _ _ (lt_of_le_of_lt hk hr).ne', hv r hr]

theorem exec_ldVxMem_loaded (h : exec (.ldVxMem x) s = .next t) : s.Loaded x t := by
  rw [← Host.Outcome.next.inj h]
  refine Flow.toState_keeps (fun _ e => .raise e) _ ?_
  refine Flow.fold_keeps_of_mem _ _ (fun _ k u hk hu => ?_) _ _ (.refl x s)
  exact Flow.bind_keeps _ _ (by simpa using hu) fun b _ hb => hb.setReg b (le_of_mem_regsUpTo hk)
end

/-! ### Draws: Dxyn (R209) -/

/-- `t` is `s` after toggles and a write of VF, an error taken or not: only the buffer, VF and status may differ, and the
buffer stays a grid of `H` rows of `W` cells. -/
def State.Painted (s t : State) : Prop :=
  ∃ d v q, t = { s with disp := d, v := v, status := q } ∧ (∀ r : Reg, r ≠ Reg.vf → t.reg r = s.reg r) ∧
    (Display.wf s.cfg.displayW s.cfg.displayH s.disp → Display.wf s.cfg.displayW s.cfg.displayH d)

/-- A property of the state that every toggle keeps, a sprite keeps. -/
theorem drawSprite_keeps_of_toggle {P : State → Prop} (htoggle : ∀ x y s, P s → P (toggle x y s).state)
    (x0 y0 n : Nat) (s : State) (hs : P s) : P (drawSprite x0 y0 n s).state := by
  refine Flow.fold_keeps _ (fun _ row u hu => ?_) _ _ _ hs
  refine Flow.bind_keeps _ _ (by simpa using hu) fun b w hw => ?_
  refine Flow.fold_keeps _ (fun _ col z hz => ?_) _ _ _ hw
  unfold drawCol
  split
  · exact Flow.bind_keeps _ _ (htoggle _ _ _ hz) fun _ _ h => h
  · exact hz

section
variable {s t : State}

theorem State.Painted.refl (s : State) : s.Painted s := ⟨s.disp, s.v, s.status, rfl, fun _ _ => rfl, id⟩

theorem State.Painted.raise (e : CoreError) : s.Painted t → s.Painted (t.raise e) := by
  rintro ⟨d, v, q, rfl, hv, hd⟩
  exact ⟨d, v, .halted e, rfl, hv, hd⟩

theorem State.Painted.setVF (b : Byte) : s.Painted t → s.Painted (t.setVF b) := by
  rintro ⟨d, v, q, rfl, hv, hd⟩
  refine ⟨d, _, q, rfl, fun r hr => ?_, hd⟩
  rw [State.setVF, State.reg_setReg_other _ _ _ _ hr, hv r hr]

theorem State.Painted.toggle (x y : Int) (h : s.Painted t) : s.Painted (toggle x y t).state := by
  obtain ⟨-, e⟩ | ⟨_, -, -, e⟩ | ⟨cx, cy, -, -, e⟩ := toggle_cases x y t <;> rw [e]
  · exact h
  · exact h
  · obtain ⟨d, v, q, rfl, hv, hd⟩ := h
    exact ⟨_, v, q, rfl, hv, fun hs => Display.wf_setCell cx cy _ (hd hs)⟩

theorem exec_drw_painted {x y : Reg} {n : BitVec 4} (h : exec (.drw x y n) s = .next t) : s.Painted t := by
  rw [← Host.Outcome.next.inj h]
  refine Flow.toState_keeps (fun _ e => .raise e) _ ?_
  exact Flow.bind_keeps _ _ (drawSprite_keeps_of_toggle (fun x y _ h => h.toggle x y) _ _ _ _ (.refl s))
    fun b _ hb => hb.setVF _
end

end Sys2Proof.Machine
end

section
/-! PROOF. The writers of each kind of state, and pc after each instruction (10_state.md R22 to R36, R27). -/

namespace Sys2Proof.Machine

/-- Settles O20: the table of R22 against what each instruction can leave. -/
theorem generalRegisterWriters : Obligations.GeneralRegisterWriters := by
  intro i s t r h hw
  cases i with
  | ret => obtain ⟨a, rest, -, rfl⟩ | ⟨-, rfl⟩ := exec_ret_cases h <;> rfl
  | call nnn => obtain ⟨-, rfl⟩ | ⟨-, rfl⟩ := exec_call_cases h <;> rfl
  | ldB x => obtain ⟨m, q, rfl, -⟩ := exec_ldB_stored h; rfl
  | ldMemVx x => obtain ⟨m, q, rfl, -⟩ := exec_ldMemVx_stored h; rfl
  | ldVxMem x =>
    obtain ⟨v, q, -, hv⟩ := exec_ldVxMem_loaded h
    exact hv r (not_le.1 (of_decide_eq_false hw))
  | drw x y n =>
    obtain ⟨d, v, q, -, hv, -⟩ := exec_drw_painted h
    exact hv r (by simpa [writesReg] using hw)
  | ldImm x _ | addImm x _ | ldReg x _ | or x _ | and x _ | xor x _ | rnd x _ | ldVxDt x =>
    have hx : r ≠ x := by simpa [writesReg] using hw
    obtain rfl : _ = t := by simpa using h
    simp [State.reg_setReg_other, hx]
  | addReg x _ | sub x _ | shr x _ | subn x _ | shl x _ =>
    obtain ⟨hx, hf⟩ : r ≠ x ∧ r ≠ Reg.vf := by simpa [writesReg] using hw
    obtain rfl : _ = t := by simpa using h
    simp [State.reg_setReg_other, hx, hf]
  | _ =>
    obtain rfl : _ = t := by simpa using h
    simp

/-- Settles O22: each field against what each instruction can leave. -/
theorem otherStateWriters : Obligations.OtherStateWriters := by
  intro i s t h
  cases i with
  | ret => obtain ⟨a, rest, -, rfl⟩ | ⟨-, rfl⟩ := exec_ret_cases h <;> simp
  | call nnn => obtain ⟨-, rfl⟩ | ⟨-, rfl⟩ := exec_call_cases h <;> simp
  | ldB x => obtain ⟨m, q, rfl, -⟩ := exec_ldB_stored h; simp
  | ldMemVx x => obtain ⟨m, q, rfl, -⟩ := exec_ldMemVx_stored h; simp
  | ldVxMem x => obtain ⟨v, q, rfl, -⟩ := exec_ldVxMem_loaded h; simp
  | drw x y n => obtain ⟨d, v, q, rfl, -⟩ := exec_drw_painted h; simp
  | _ =>
    obtain rfl : _ = t := by simpa using h
    simp

/-- An address operand, as a number (R81). -/
theorem addrOperand_eq_ofNat (nnn : BitVec 12) : addrOperand nnn = BitVec.ofNat 16 nnn.toNat :=
  (BitVec.ofNat_toNat 16 nnn).symm

/-- The target of Bnnn, as a number (R117). -/
theorem addrOperand_add_wide (nnn : BitVec 12) (b : Byte) :
    addrOperand nnn + wide b = BitVec.ofNat 16 (nnn.toNat + b.toNat) := by
  rw [BitVec.ofNat_add, BitVec.ofNat_toNat, BitVec.ofNat_toNat, addrOperand, wide]

/-- Settles O23: the table of R27 against what each instruction can leave; the two that raise and move pc are RET and
CALL, and neither moves it when it raises. -/
theorem pcAfterEachInstruction : Obligations.PcAfterEachInstruction := by
  intro i s t hrun h
  cases i with
  | ret =>
    obtain ⟨a, rest, hs, rfl⟩ | ⟨-, rfl⟩ := exec_ret_cases h
    · simp [pcAfter, hs, hrun]
    · simp
  | call nnn =>
    obtain ⟨-, rfl⟩ | ⟨-, rfl⟩ := exec_call_cases h
    · simp [pcAfter, addrOperand_eq_ofNat, hrun]
    · simp
  | ldB x => obtain ⟨m, q, rfl, -⟩ := exec_ldB_stored h; simp [pcAfter]
  | ldMemVx x => obtain ⟨m, q, rfl, -⟩ := exec_ldMemVx_stored h; simp [pcAfter]
  | ldVxMem x => obtain ⟨v, q, rfl, -⟩ := exec_ldVxMem_loaded h; simp [pcAfter]
  | drw x y n => obtain ⟨d, v, q, rfl, -⟩ := exec_drw_painted h; simp [pcAfter]
  | jp nnn =>
    obtain rfl : _ = t := by simpa using h
    simp [pcAfter, addrOperand_eq_ofNat, hrun]
  | jpV0 nnn =>
    obtain rfl : _ = t := by simpa using h
    simp [pcAfter, addrOperand_add_wide, hrun]
  | _ =>
    obtain rfl : _ = t := by simpa using h
    simp [pcAfter, hrun]

end Sys2Proof.Machine
end

section
/-! PROOF. Instructions and the batch position: the meanings commute with any change of the model's own fields `slot` and
`out` (R36, R91, R310). -/

namespace Sys2Proof.Machine

/-- Another batch position and other port contents. -/
def State.rebatch (k : Nat) (o : List Output) (s : State) : State := { s with slot := k, out := o }

/-- A change of the state that statements have reached. -/
def Flow.mapState {α : Type} (f : State → State) : Flow α → Flow α
  | .go a s => .go a (f s)
  | .stop e s => .stop e (f s)

section
variable {α β κ σ : Type} {f : State → State}

@[simp] theorem Flow.mapState_go (a : α) (s : State) : (Flow.go a s).mapState f = .go a (f s) := rfl
@[simp] theorem Flow.mapState_stop (e : CoreError) (s : State) :
    (Flow.stop e s : Flow α).mapState f = .stop e (f s) := rfl

/-- Two statements that each commute with a change of the state commute with it in sequence. -/
theorem Flow.bind_mapState (m : Flow α) {g : α → State → Flow β} (hg : ∀ a s, g a (f s) = (g a s).mapState f) :
    (m.mapState f).bind g = (m.bind g).mapState f := by
  cases m with
  | go a s => exact hg a s
  | stop e s => rfl

/-- A loop whose body commutes with a change of the state commutes with it. -/
theorem Flow.fold_mapState {body : σ → κ → State → Flow σ}
    (hbody : ∀ a k s, body a k (f s) = (body a k s).mapState f) (ks : List κ) (acc : σ) (s : State) :
    Flow.fold body ks acc (f s) = (Flow.fold body ks acc s).mapState f := by
  induction ks generalizing acc s with
  | nil => rfl
  | cons k ks ih => rw [Flow.fold_cons, hbody, Flow.fold_cons, Flow.bind_mapState _ ih]
end

section
variable (k : Nat) (o : List Output) (s : State)

/-- Statements that commute with a change of the batch position make an instruction that does: an error is raised alike
in every batch position. -/
theorem Flow.finish_rebatch {α : Type} {m n : Flow α} (h : m = n.mapState (State.rebatch k o)) :
    m.finish = onNext n.finish (State.rebatch k o) := by
  rw [h]
  cases n <;> rfl

theorem memRead_rebatch (a : Nat) : memRead a (s.rebatch k o) = (memRead a s).mapState (State.rebatch k o) := by
  unfold memRead; split <;> rfl

theorem memWrite_rebatch (a : Nat) (b : Byte) :
    memWrite a b (s.rebatch k o) = (memWrite a b s).mapState (State.rebatch k o) := by
  unfold memWrite; split <;> rfl

theorem popReturn_rebatch : popReturn (s.rebatch k o) = (popReturn s).mapState (State.rebatch k o) := by
  unfold popReturn
  rw [show (s.rebatch k o).stack = s.stack from rfl]
  split <;> rfl

theorem pushReturn_rebatch (a : Half) :
    pushReturn a (s.rebatch k o) = (pushReturn a s).mapState (State.rebatch k o) := by
  unfold pushReturn
  rw [show (s.rebatch k o).stackFull = s.stackFull from rfl]
  split <;> rfl

theorem toggle_rebatch (x y : Int) : toggle x y (s.rebatch k o) = (toggle x y s).mapState (State.rebatch k o) := by
  unfold toggle
  rw [show (s.rebatch k o).cfg = s.cfg from rfl]
  split
  · rfl
  · split <;> rfl

theorem drawCol_rebatch (b : Byte) (x0 y : Nat) (erased : Bool) (col : Nat) :
    drawCol b x0 y erased col (s.rebatch k o) = (drawCol b x0 y erased col s).mapState (State.rebatch k o) := by
  unfold drawCol
  split
  · rw [toggle_rebatch, Flow.bind_mapState _ fun _ _ => rfl]
  · rfl

theorem drawSprite_rebatch (x0 y0 n : Nat) :
    drawSprite x0 y0 n (s.rebatch k o) = (drawSprite x0 y0 n s).mapState (State.rebatch k o) := by
  refine Flow.fold_mapState (fun erased row u => ?_) _ _ _
  rw [drawRow, drawRow, memRead_rebatch]
  exact Flow.bind_mapState _ fun b u => Flow.fold_mapState (fun _ _ _ => drawCol_rebatch ..) _ _ _
end

/-- Settles O15: the straight instructions commute by computation, the others by their statements, one after another. -/
theorem instructionsIgnoreBatchPosition : Obligations.InstructionsIgnoreBatchPosition := by
  intro i s k o
  change exec i (s.rebatch k o) = onNext (exec i s) (State.rebatch k o)
  cases i with
  | ret =>
    refine Flow.finish_rebatch k o ?_
    rw [popReturn_rebatch]
    exact Flow.bind_mapState _ fun _ _ => rfl
  | call nnn =>
    refine Flow.finish_rebatch k o ?_
    rw [pushReturn_rebatch]
    exact Flow.bind_mapState _ fun _ _ => rfl
  | ldB x =>
    refine Flow.finish_rebatch k o ?_
    rw [memWrite_rebatch]
    refine Flow.bind_mapState _ fun _ u => ?_
    rw [memWrite_rebatch]
    exact Flow.bind_mapState _ fun _ u => memWrite_rebatch ..
  | ldMemVx x =>
    exact Flow.finish_rebatch k o
      (Flow.fold_mapState (fun _ r u => memWrite_rebatch k o u (u.ea r.val) (u.reg r)) _ _ _)
  | ldVxMem x =>
    refine Flow.finish_rebatch k o (Flow.fold_mapState (fun _ _ u => ?_) _ _ _)
    rw [loadReg, loadReg, memRead_rebatch]
    exact Flow.bind_mapState _ fun _ _ => rfl
  | drw x y n =>
    refine Flow.finish_rebatch k o ?_
    rw [drawSprite_rebatch]
    exact Flow.bind_mapState _ fun _ _ => rfl
  | seImm x kk => simp only [exec_seImm]; rfl
  | sneImm x kk => simp only [exec_sneImm]; rfl
  | seReg x y => simp only [exec_seReg]; rfl
  | sneReg x y => simp only [exec_sneReg]; rfl
  | _ => rfl

end Sys2Proof.Machine
end

section
/-! PROOF. The invariants of the state (10_state.md, 20_memory.md R50, 60_exceptions.md R269). -/

namespace Sys2Proof.Machine

section
variable {i : Instr} {s t : State}

/-! ## What one instruction keeps -/

/-- No instruction changes the parameters (R8). -/
theorem exec_cfg (h : exec i s = .next t) : t.cfg = s.cfg := by
  obtain ⟨-, -, -, -, -, -, hcfg, -⟩ := otherStateWriters i s t h
  exact hcfg

/-- The stack after an instruction: as before, popped, or the advanced pc pushed below the limit (R110, R112). -/
theorem exec_stack_cases (h : exec i s = .next t) :
    t.stack = s.stack ∨ (∃ a, s.stack = a :: t.stack) ∨ (s.stackFull = false ∧ t.stack = s.pc :: s.stack) := by
  by_cases hs : t.stack = s.stack
  · exact .inl hs
  obtain ⟨-, hstack, -⟩ := otherStateWriters i s t h
  obtain rfl | ⟨nnn, rfl⟩ := hstack hs
  · obtain ⟨a, rest, hpop, rfl⟩ | ⟨-, rfl⟩ := exec_ret_cases h
    · exact .inr (.inl ⟨a, hpop⟩)
    · exact .inl rfl
  · obtain ⟨hf, rfl⟩ | ⟨-, rfl⟩ := exec_call_cases h
    · exact .inr (.inr ⟨hf, rfl⟩)
    · exact .inl rfl

/-- Every instruction keeps memory canonical (R50). -/
theorem exec_mem_wf (h : exec i s = .next t) (hm : Memory.wf s.cfg.font s.mem) : Memory.wf t.cfg.font t.mem := by
  cases i with
  | ret => obtain ⟨a, rest, -, rfl⟩ | ⟨-, rfl⟩ := exec_ret_cases h <;> exact hm
  | call nnn => obtain ⟨-, rfl⟩ | ⟨-, rfl⟩ := exec_call_cases h <;> exact hm
  | ldB x => obtain ⟨m, q, rfl, hkeeps⟩ := exec_ldB_stored h; exact hkeeps hm
  | ldMemVx x => obtain ⟨m, q, rfl, hkeeps⟩ := exec_ldMemVx_stored h; exact hkeeps hm
  | ldVxMem x => obtain ⟨v, q, rfl, -⟩ := exec_ldVxMem_loaded h; exact hm
  | drw x y n => obtain ⟨d, v, q, rfl, -⟩ := exec_drw_painted h; exact hm
  | _ =>
    obtain rfl : _ = t := by simpa using h
    exact hm

/-- Every instruction keeps the buffer a grid of H rows of W cells (R33). -/
theorem exec_disp_wf (h : exec i s = .next t) (hd : Display.wf s.cfg.displayW s.cfg.displayH s.disp) :
    Display.wf t.cfg.displayW t.cfg.displayH t.disp := by
  obtain ⟨-, -, -, -, hdisp, -⟩ := otherStateWriters i s t h
  rw [exec_cfg h]
  by_cases hs : t.disp = s.disp
  · rwa [hs]
  obtain rfl | ⟨x, y, n, rfl⟩ := hdisp hs
  · cases h
    exact Display.wf_blank _ _
  · obtain ⟨d, v, q, rfl, -, hkeeps⟩ := exec_drw_painted h
    exact hkeeps hd

/-- Where pc can stand after an instruction that raises nothing: a skip reaches `p + 4`, Bnnn at most 0xFFF + 0xFF (R27). -/
theorem pcAfter_le (i : Instr) (hpc : s.pc.toNat ≤ 0x1000) (hstack : ∀ a ∈ s.stack, a.toNat ≤ 0x1000) :
    (pcAfter i s).toNat ≤ 0x10FE := by
  have hskip : (s.pc + 2).toNat ≤ 0x10FE := by bv_omega
  have hpc' : s.pc.toNat ≤ 0x10FE := by omega
  cases i with
  | ret =>
    cases hs : s.stack with
    | nil => simpa [pcAfter, hs] using hpc'
    | cons a rest =>
      have := hstack a (by simp [hs])
      simp only [pcAfter, hs, List.headD_cons]
      omega
  | jp nnn | call nnn => simp only [pcAfter, BitVec.toNat_ofNat]; omega
  | jpV0 nnn => simp only [pcAfter, BitVec.toNat_ofNat]; omega
  | seImm x kk | sneImm x kk | seReg x y | sneReg x y => simp only [pcAfter]; split <;> assumption
  | _ => exact hpc'

/-- An instruction at an address inside memory keeps the bounds of pc and of the return addresses (R27, R110). -/
theorem exec_pcOk (hrun : s.status = .running) (h : exec i s = .next t) (hpc : s.pc.toNat ≤ 0x1000)
    (hstack : ∀ a ∈ s.stack, a.toNat ≤ 0x1000) : t.PcOk := by
  obtain ⟨hgo, hstop⟩ := pcAfterEachInstruction i s t hrun h
  constructor
  · by_cases hr : t.status = .running
    · rw [hgo hr]
      exact pcAfter_le i hpc hstack
    · rw [hstop hr]
      omega
  · intro a ha
    obtain e | ⟨b, e⟩ | ⟨-, e⟩ := exec_stack_cases h
    · exact hstack a (e ▸ ha)
    · exact hstack a (e ▸ List.mem_cons_of_mem b ha)
    · obtain rfl | ha := List.mem_cons.1 (e ▸ ha)
      · exact hpc
      · exact hstack a ha

/-- Every instruction keeps the depth within a configured limit: the only push is behind the check (R29, R112). -/
theorem exec_depthOk (h : exec i s = .next t) (hd : s.DepthOk) : t.DepthOk := by
  intro l hl
  rw [exec_cfg h] at hl
  have hle := hd l hl
  obtain e | ⟨b, e⟩ | ⟨hfull, e⟩ := exec_stack_cases h
  · rwa [e]
  · rw [e, List.length_cons] at hle
    omega
  · have hne : l ≠ s.stack.length := by simpa [State.stackFull, hl] using hfull
    rw [e, List.length_cons]
    omega

/-! ## What one step keeps -/

/-- Inside memory, pc advances without wrapping (R90). -/
theorem State.advance_pc_le (h : s.pc.toNat + 1 ≤ addrMax) : s.advance.pc.toNat ≤ 0x1000 := by
  simp only [addrMax] at h
  simp only [State.advance, State.setPc_pc]
  bv_omega

/-- One instruction step keeps everything but the batch position's bound at its end, which `closeSlot` restores. -/
theorem stepOnce_keeps (hrun : s.status = .running) (hstorage : s.StorageOk) (hpc : s.PcOk) (hdepth : s.DepthOk)
    (h : stepOnce s = .next t) : t.cfg = s.cfg ∧ t.slot = s.slot ∧ t.StorageOk ∧ t.PcOk ∧ t.DepthOk := by
  obtain ⟨-, e⟩ | ⟨hin, op, -, -, e⟩ | ⟨hin, op, i, -, -, e⟩ := stepOnce_cases s <;> rw [e] at h
  · cases h
    exact ⟨rfl, rfl, hstorage, hpc, hdepth⟩
  · cases h
    exact ⟨rfl, rfl, hstorage, ⟨(State.advance_pc_le hin).trans (by decide), hpc.2⟩, hdepth⟩
  · obtain ⟨-, -, -, -, -, -, -, hslot, -⟩ := otherStateWriters _ _ _ h
    exact ⟨exec_cfg (s := s.advance) h, hslot, ⟨exec_mem_wf h hstorage.1, exec_disp_wf h hstorage.2⟩,
      exec_pcOk (s := s.advance) hrun h (State.advance_pc_le hin) hpc.2, exec_depthOk h hdepth⟩

/-- The end of a slot leaves a batch position below SPEED, and 0 after an error (R269). -/
theorem closeSlot_slotOk (h : s.slot < s.cfg.speed) : (closeSlot s).SlotOk := by
  have hpos : 0 < s.cfg.speed := by omega
  cases hhalt : s.isHalted with
  | true =>
    rw [closeSlot_halted hhalt]
    exact ⟨hpos, fun _ => rfl⟩
  | false =>
    by_cases hlast : s.cfg.speed ≤ s.slot + 1
    · rw [closeSlot_last hhalt hlast]
      exact ⟨hpos, fun _ => rfl⟩
    · rw [closeSlot_inner hhalt (by omega)]
      exact ⟨by simpa using hlast, fun hh => absurd hh (by simpa [State.isHalted] using hhalt)⟩

/-- The end of a slot leaves everything the other invariants speak of. -/
theorem closeSlot_inv (hcfg : s.cfg.wellFormed = true) (hstorage : s.StorageOk) (hpc : s.PcOk) (hdepth : s.DepthOk)
    (hslot : s.slot < s.cfg.speed) : (closeSlot s).Inv := by
  have hrest : (closeSlot s).cfg.wellFormed = true ∧ (closeSlot s).StorageOk ∧ (closeSlot s).PcOk ∧
      (closeSlot s).DepthOk :=
    closeSlot_keeps (P := fun u => u.cfg.wellFormed = true ∧ u.StorageOk ∧ u.PcOk ∧ u.DepthOk) s
      (fun _ => ⟨hcfg, hstorage, hpc, hdepth⟩) (fun _ _ _ _ => ⟨hcfg, hstorage, hpc, hdepth⟩)
  obtain ⟨hcfg, hstorage, hpc, hdepth⟩ := hrest
  exact ⟨hcfg, hstorage, hpc, hdepth, closeSlot_slotOk hslot⟩
end

/-- Settles O17: an instruction step keeps the bounds, and the end of its slot keeps the batch position. -/
theorem stepKeepsInvariants : Obligations.StepKeepsInvariants := by
  rintro s t ⟨hcfg, hstorage, hpc, hdepth, hslot, -⟩ h
  obtain ⟨e, -, hfault⟩ | ⟨hrun, u, hu, hstep⟩ := step_cases s
  · rw [hfault] at h
    cases h
  · rw [hstep] at h
    cases h
    obtain ⟨ucfg, uslot, ustorage, upc, udepth⟩ :=
      stepOnce_keeps (s := s.setOut []) hrun hstorage hpc hdepth hu
    exact closeSlot_inv (ucfg ▸ hcfg) ustorage upc udepth (by rw [ucfg, uslot]; exact hslot)

/-! ## Reset -/

/-- The parameters of the baseline are in range, whatever the open tone frequency is (R8). -/
theorem Config.baseline_wellFormed : Config.baseline.wellFormed = true := by
  simp [Config.wellFormed, Config.displayOk, Config.stackLimitOk, Config.speedOk, Config.toneOk, Config.baseline]

/-- Settles O18: each invariant at the reset values. -/
theorem resetMeetsInvariants : Obligations.ResetMeetsInvariants :=
  ⟨Config.baseline_wellFormed, ⟨Memory.wf_reset, Display.wf_blank 64 32⟩,
    ⟨by decide, fun _ ha => absurd ha List.not_mem_nil⟩, fun _ => nofun,
    ⟨by decide, fun _ => rfl⟩⟩

/-- Settles O57: the reset values, memory and the buffer read through their own laws, and Construct of the empty image. -/
theorem resetValues : Obligations.ResetValues := by
  refine ⟨rfl, rfl, fun r => ?_, rfl, rfl, rfl, rfl, fun a => ?_, fun cx cy => ?_, ?_⟩
  · simp [State.reg, State.reset]
  · exact Memory.read_nil _ a
  · exact Display.cell_blank 64 32 cx cy
  · rfl

end Sys2Proof.Machine
end

section
/-! PROOF. Memory: what a byte store does, the bytes each instruction stores, and fetching what was stored
(20_memory.md R51 to R64). -/

namespace Sys2Proof.Machine

/-! ## One byte (R51, R52) -/

/-- Settles O41: each clause by the law of the access inside, or outside, the address space. -/
theorem memoryReadsLatestWrite : Obligations.MemoryReadsLatestWrite := by
  refine fun s a b => ⟨fun ha => ⟨memRead_in ha, _, memWrite_in ha, rfl, ?_, fun c hc => ?_, ?_⟩,
    fun ha => ⟨memRead_out ha, memWrite_out ha⟩⟩
  · rw [State.byteAt_write, if_pos rfl]
  · rw [State.byteAt_write, if_neg hc]
  · exact Memory.wf_write _ b ha

/-! ## The bytes an instruction stores (R56) -/

/-- `t` is `s` after statements that leave I, and so the effective addresses, and the byte at `a` as they were. -/
def State.KeepsByte (a : Nat) (s t : State) : Prop := t.i = s.i ∧ t.byteAt a = s.byteAt a

section
variable {a k n : Nat} {s t : State} {x : Reg}

theorem State.KeepsByte.refl (a : Nat) (s : State) : s.KeepsByte a s := ⟨rfl, rfl⟩

theorem State.KeepsByte.raise (e : CoreError) (h : s.KeepsByte a t) : s.KeepsByte a (t.raise e) := h

/-- A store at another offset from I leaves the byte as it was. -/
theorem State.KeepsByte.memWrite (b : Byte) (hk : a ≠ s.ea k) (h : s.KeepsByte a t) :
    s.KeepsByte a (memWrite (t.ea k) b t).state := by
  obtain ⟨hi, hbyte⟩ := h
  obtain ⟨-, e⟩ | ⟨-, e⟩ := memWrite_cases (t.ea k) b t <;> rw [e]
  · have hne : a ≠ t.ea k := by rwa [State.ea, hi]
    exact ⟨hi, by rw [Flow.state_go, State.byteAt_write, if_neg hne, hbyte]⟩
  · exact ⟨hi, hbyte⟩

/-- An address outside `I..I+n` is none of the addresses `I + k` up to there. -/
theorem State.ne_ea_of_outside (hk : k ≤ n) (h : (decide (s.ea 0 ≤ a) && decide (a ≤ s.ea n)) = false) :
    a ≠ s.ea k := by
  rintro rfl
  simp [State.ea, hk] at h

/-- Fx33 leaves every byte outside `I..I+2` (R183). -/
theorem exec_ldB_keepsByte (h : exec (.ldB x) s = .next t) (ha : storesAt (.ldB x) s a = false) :
    s.KeepsByte a t := by
  rw [← Host.Outcome.next.inj h]
  refine Flow.toState_keeps (fun _ e => .raise e) _ ?_
  have hne : ∀ k ≤ 2, a ≠ s.ea k := fun _ hk => State.ne_ea_of_outside hk ha
  exact Flow.bind_keeps _ _ ((State.KeepsByte.refl a s).memWrite _ (hne 0 (by decide))) fun _ _ h1 =>
    Flow.bind_keeps _ _ (h1.memWrite _ (hne 1 (by decide))) fun _ _ h2 => h2.memWrite _ (hne 2 le_rfl)

/-- Fx55 leaves every byte outside `I..I+x` (R184). -/
theorem exec_ldMemVx_keepsByte (h : exec (.ldMemVx x) s = .next t) (ha : storesAt (.ldMemVx x) s a = false) :
    s.KeepsByte a t := by
  rw [← Host.Outcome.next.inj h]
  refine Flow.toState_keeps (fun _ e => .raise e) _ ?_
  exact Flow.fold_keeps_of_mem _ _ (fun _ _ _ hk hu =>
    hu.memWrite _ (State.ne_ea_of_outside (le_of_mem_regsUpTo hk) ha)) _ _ (.refl a s)
end

/-- Settles O21: the table of R56 against what each instruction can leave; only Fx33 and Fx55 write memory. -/
theorem memoryWriters : Obligations.MemoryWriters := by
  intro i s t a h ha
  cases i with
  | ldB x => exact (exec_ldB_keepsByte h ha).2
  | ldMemVx x => exact (exec_ldMemVx_keepsByte h ha).2
  | ret => obtain ⟨b, rest, -, rfl⟩ | ⟨-, rfl⟩ := exec_ret_cases h <;> rfl
  | call nnn => obtain ⟨-, rfl⟩ | ⟨-, rfl⟩ := exec_call_cases h <;> rfl
  | ldVxMem x => obtain ⟨v, q, rfl, -⟩ := exec_ldVxMem_loaded h; rfl
  | drw x y n => obtain ⟨d, v, q, rfl, -⟩ := exec_drw_painted h; rfl
  | _ =>
    obtain rfl : _ = t := by simpa using h
    simp

/-! ## Registers stored one after another (R184) -/

/-- The values of the first `n` general registers, V0 first. -/
def State.firstRegs (s : State) (n : Nat) : List Byte := ((List.finRange 16).take n).map s.reg

/-- Memory after the first `n` general registers are stored from I upwards. -/
def State.memWithRegs (s : State) (n : Nat) : Memory :=
  Memory.writeList s.cfg.font s.mem s.i.toNat (s.firstRegs n)

/-- The last of several bytes stored upwards is stored after the others. -/
theorem Memory.writeList_concat (font : Vector Byte 80) (m : Memory) (a : Nat) (bs : List Byte) (b : Byte) :
    Memory.writeList font m a (bs ++ [b]) = Memory.write font (Memory.writeList font m a bs) (a + bs.length) b := by
  induction bs generalizing m a with
  | nil => rfl
  | cons c bs ih =>
    rw [List.cons_append, Memory.writeList, ih, Memory.writeList, List.length_cons, Nat.add_right_comm, Nat.add_assoc]

section
variable {n : Nat} {s : State}

/-- The first registers and the next one. -/
theorem take_finRange_succ (h : n < 16) :
    (List.finRange 16).take (n + 1) = (List.finRange 16).take n ++ [⟨n, h⟩] := by
  rw [List.take_add_one, List.getElem?_eq_getElem (by simpa using h)]
  simp

theorem State.length_firstRegs (h : n ≤ 16) : (s.firstRegs n).length = n := by
  simp [State.firstRegs, h]

theorem State.firstRegs_getElem? {k : Reg} (h : k.val < n) : (s.firstRegs n)[k.val]? = some (s.reg k) := by
  simp [State.firstRegs, h]

/-- One more register stored. -/
theorem State.memWithRegs_succ (h : n < 16) :
    s.memWithRegs (n + 1) = Memory.write s.cfg.font (s.memWithRegs n) (s.i.toNat + n) (s.reg ⟨n, h⟩) := by
  have hregs : s.firstRegs (n + 1) = s.firstRegs n ++ [s.reg ⟨n, h⟩] := by
    simp [State.firstRegs, take_finRange_succ h]
  rw [State.memWithRegs, hregs, Memory.writeList_concat, State.length_firstRegs h.le, State.memWithRegs]

/-- A register stored is the byte read at its address. -/
theorem State.byteAt_memWithRegs {k : Reg} (h : k.val < n) :
    (s.setMem (s.memWithRegs n)).byteAt (s.i.toNat + k.val) = s.reg k := by
  simp [State.byteAt, State.memWithRegs, Memory.read_writeList, State.firstRegs_getElem? h]

/-- The loop of Fx55 over the first `n` registers, as far as it stays inside memory: it stores them and nothing else. -/
theorem fold_storeReg_in (hn : n ≤ 16) (h : s.i.toNat + n ≤ addrMax + 1) :
    Flow.fold storeReg ((List.finRange 16).take n) () s = .go () (s.setMem (s.memWithRegs n)) := by
  induction n with
  | zero => rfl
  | succ n ih =>
    have hstore : storeReg () ⟨n, hn⟩ (s.setMem (s.memWithRegs n)) = .go () (s.setMem (s.memWithRegs (n + 1))) := by
      rw [State.memWithRegs_succ hn]
      exact memWrite_in (by simp only [State.ea, State.setMem_i]; omega)
    rw [take_finRange_succ hn, Flow.fold_append, ih (by omega) (by omega), Flow.bind_go, Flow.fold_cons, hstore]
    rfl

/-- Fx55 inside memory stores V0..Vx and changes nothing else (R184). -/
theorem exec_ldMemVx_in {x : Reg} (h : s.i.toNat + x.val ≤ addrMax) :
    exec (.ldMemVx x) s = .next (s.setMem (s.memWithRegs (x.val + 1))) := by
  change Flow.finish (Flow.fold storeReg ((List.finRange 16).take (x.val + 1)) () s) = _
  rw [fold_storeReg_in x.isLt (by omega)]
  rfl
end

/-- Settles O48: Fx55 leaves V0 at I and V1 at I + 1, and a fetch at I reads those two bytes, the high one first. -/
theorem storeIsSeenByFetch : Obligations.StoreIsSeenByFetch := by
  intro s x hx hin
  refine ⟨_, exec_ldMemVx_in hin, ?_⟩
  have hhi : (s.setMem (s.memWithRegs (x.val + 1))).byteAt s.i.toNat = s.reg 0 :=
    State.byteAt_memWithRegs (k := 0) (Nat.succ_pos _)
  have hlo : (s.setMem (s.memWithRegs (x.val + 1))).byteAt (s.i.toNat + 1) = s.reg 1 :=
    State.byteAt_memWithRegs (k := 1) (Nat.lt_succ_of_le hx)
  change fetch ((s.setMem (s.memWithRegs (x.val + 1))).setPc s.i) = _
  rw [fetch_in (show s.i.toNat + 1 ≤ 0xFFF by omega)]
  simp only [State.setPc_pc, State.setPc_byteAt, hhi, hlo]
  rfl

end Sys2Proof.Machine
end

section
/-! PROOF. The encoding rows of all instructions in one statement (30_encoding.md R83). -/

namespace Sys2Proof.Laws

/-- Every instruction's word is of the instruction's row. -/
theorem EncodingRow.of_instr (i : Instr) : Statement i :=
  match i with
  | .cls => cls
  | .ret => ret
  | .jp _ => jp _
  | .call _ => call _
  | .seImm _ _ => seImm _ _
  | .sneImm _ _ => sneImm _ _
  | .seReg _ _ => seReg _ _
  | .ldImm _ _ => ldImm _ _
  | .addImm _ _ => addImm _ _
  | .ldReg _ _ => ldReg _ _
  | .or _ _ => or _ _
  | .and _ _ => and _ _
  | .xor _ _ => xor _ _
  | .addReg _ _ => addReg _ _
  | .sub _ _ => sub _ _
  | .shr _ _ => shr _ _
  | .subn _ _ => subn _ _
  | .shl _ _ => shl _ _
  | .sneReg _ _ => sneReg _ _
  | .ldI _ => ldI _
  | .jpV0 _ => jpV0 _
  | .rnd _ _ => rnd _ _
  | .drw _ _ _ => drw _ _ _
  | .skp _ => skp _
  | .sknp _ => sknp _
  | .ldVxDt _ => ldVxDt _
  | .ldVxK _ => ldVxK _
  | .ldDtVx _ => ldDtVx _
  | .ldStVx _ => ldStVx _
  | .addI _ => addI _
  | .ldF _ => ldF _
  | .ldB _ => ldB _
  | .ldMemVx _ => ldMemVx _
  | .ldVxMem _ => ldVxMem _

end Sys2Proof.Laws
end

section
/-! PROOF. The decoder, the encoder and the opcode map against one another (30_encoding.md R80 to R87). -/

namespace Sys2Proof

/-! ## Decoding an encoded word -/

/-- The decoder's tests see the fields the encoder placed, so each instruction is selected again with its operands. -/
theorem decodeWord_encode (i : Instr) : decodeWord (encode i) = .ok i := by
  cases i with
  | cls | ret => rfl
  | jp nnn | call nnn | ldI nnn | jpV0 nnn | seImm x kk | sneImm x kk | ldImm x kk | addImm x kk | rnd x kk
  | seReg x y | sneReg x y | drw x y n | skp x | sknp x =>
    simp [encode, decodeWord]
  | ldReg x y | or x y | and x y | xor x y | addReg x y | sub x y | shr x y | subn x y | shl x y =>
    simp [encode, decodeWord, decodeAlu]
  | ldVxDt x | ldVxK x | ldDtVx x | ldStVx x | addI x | ldF x | ldB x | ldMemVx x | ldVxMem x =>
    simp [encode, decodeWord, decodeMisc]

theorem decodeWord_of_encode_eq {i : Instr} {op : Half} (h : encode i = op) : decodeWord op = .ok i :=
  h ▸ decodeWord_encode i

/-- Settles O4: the word by `decodeWord_encode`, the two bytes because they make up that word. -/
theorem decodeInvertsEncode : Obligations.DecodeInvertsEncode := by
  refine fun i => ⟨decodeWord_encode i, fun rest => ?_⟩
  simp [encodeBytes, decode, decodeWord_encode]

/-! ## A word from its own fields (R81) -/

section
variable {op : Half} {t n : BitVec 4} {kk : Byte}

theorem wordXYN_of_fields (ht : fieldT op = t) (hn : fieldN op = n) :
    wordXYN t (regOf (fieldX op)) (regOf (fieldY op)) n = op := by
  rw [← ht, ← hn, wordXYN, regBits_regOf, regBits_regOf, nibbles_of_word]

/-- The nibbles of `kk` are the fields `y` and `n` (R80). -/
theorem wordXKK_of_fields (ht : fieldT op = t) (hkk : fieldKK op = kk) :
    wordXKK t (regOf (fieldX op)) kk = op := by
  subst ht hkk
  have hy : (fieldKK op).extractLsb' 4 4 = fieldY op := BitVec.extractLsb'_extractLsb'_of_le (by decide)
  have hn : (fieldKK op).extractLsb' 0 4 = fieldN op := BitVec.extractLsb'_extractLsb'_of_le (by decide)
  rw [wordXKK_nibbles, hy, hn, regBits_regOf, nibbles_of_word]

/-- The nibbles of `nnn` are the fields `x`, `y` and `n` (R80). -/
theorem wordNNN_of_fields (ht : fieldT op = t) : wordNNN t (fieldNNN op) = op := by
  have hx : (fieldNNN op).extractLsb' 8 4 = fieldX op := BitVec.extractLsb'_extractLsb'_of_le (by decide)
  have hy : (fieldNNN op).extractLsb' 4 4 = fieldY op := BitVec.extractLsb'_extractLsb'_of_le (by decide)
  have hn : (fieldNNN op).extractLsb' 0 4 = fieldN op := BitVec.extractLsb'_extractLsb'_of_le (by decide)
  rw [wordNNN_nibbles, hx, hy, hn, ← ht, nibbles_of_word]
end

/-! ## Encoding a decoded word -/

/-- What the decoder may answer to `op`: an instruction of which `op` is the word, or `Unknown` of `op` itself. -/
def DecodeAnswer (op : Half) (r : Except DecodeError Instr) : Prop :=
  (∃ i, r = .ok i ∧ encode i = op) ∨ r = .error (.unknown op)

section
variable {op : Half} {i : Instr}

theorem DecodeAnswer.ok (h : encode i = op) : DecodeAnswer op (.ok i) := .inl ⟨i, rfl, h⟩

theorem DecodeAnswer.unknown : DecodeAnswer op (.error (.unknown op)) := .inr rfl

/-- Family 8: each low nibble selects the instruction it is the last nibble of. -/
theorem decodeAlu_answer (ht : fieldT op = 0x8) :
    DecodeAnswer op (decodeAlu op (regOf (fieldX op)) (regOf (fieldY op))) := by
  unfold decodeAlu
  split
  case h_10 => exact .unknown
  all_goals
    rename_i hn
    exact .ok (wordXYN_of_fields ht hn)

/-- Family F: each low byte selects the instruction it is the low byte of. -/
theorem decodeMisc_answer (ht : fieldT op = 0xF) : DecodeAnswer op (decodeMisc op (regOf (fieldX op))) := by
  unfold decodeMisc
  split
  case h_10 => exact .unknown
  all_goals
    rename_i hkk
    exact .ok (wordXKK_of_fields ht hkk)

/-- One family after another; the last one is F because no other nibble is left. -/
theorem decodeWord_answer (op : Half) : DecodeAnswer op (decodeWord op) := by
  simp only [decodeWord]
  split
  case h_1 =>
    split_ifs with hcls hret
    · exact .ok hcls.symm
    · exact .ok hret.symm
    · exact .unknown
  case h_2 ht | h_3 ht | h_11 ht | h_12 ht => exact .ok (wordNNN_of_fields ht)
  case h_4 ht | h_5 ht | h_7 ht | h_8 ht | h_13 ht => exact .ok (wordXKK_of_fields ht rfl)
  case h_6 ht | h_10 ht =>
    split_ifs with hn
    · exact .ok (wordXYN_of_fields ht hn)
    · exact .unknown
  case h_9 ht => exact decodeAlu_answer ht
  case h_14 ht => exact .ok (wordXYN_of_fields ht rfl)
  case h_15 ht =>
    split_ifs with hskp hsknp
    · exact .ok (wordXKK_of_fields ht hskp)
    · exact .ok (wordXKK_of_fields ht hsknp)
    · exact .unknown
  case h_16 =>
    refine decodeMisc_answer ?_
    simp only [imp_false] at *
    bv_omega

theorem encode_of_decodeWord (h : decodeWord op = .ok i) : encode i = op := by
  obtain ⟨j, hj, henc⟩ | hunknown := decodeWord_answer op
  · obtain rfl : j = i := by simpa [h] using hj.symm
    exact henc
  · simp [h] at hunknown
end

/-- Settles O5: an answer of the decoder that is an instruction is one of which the word is the encoding. -/
theorem encodeInvertsDecode : Obligations.EncodeInvertsDecode := fun _ _ => encode_of_decodeWord

/-! ## The opcode map (R83) -/

/-- Two rows of the map whose match values agree on the bits that both masks keep are one row. -/
theorem opcodeRows_eq_of_agree : ∀ r ∈ opcodeRows, ∀ q ∈ opcodeRows,
    r.value &&& q.mask = q.value &&& r.mask → r = q := by decide

/-- Settles O3: a word of two rows makes their match values agree on the bits that both masks keep. -/
theorem opcodeRowsNeverOverlap : Obligations.OpcodeRowsNeverOverlap := by
  refine ⟨rfl, fun r q op hr hq hop hop' => opcodeRows_eq_of_agree r hr q hq ?_⟩
  calc r.value &&& q.mask
    _ = op &&& r.mask &&& q.mask := by rw [hop]
    _ = op &&& q.mask &&& r.mask := by rw [BitVec.and_assoc, BitVec.and_comm r.mask, BitVec.and_assoc]
    _ = q.value &&& r.mask := by rw [hop']

theorem Instr.row_mem_opcodeRows (i : Instr) : i.row ∈ opcodeRows := by
  cases i <;> simp [Instr.row, opcodeRows, opcodeRowsLow, opcodeRowsMid, opcodeRowsHigh]

/-- A word of no row is `Unknown`: a word that decodes is an encoded word, and so of a row. -/
theorem decodeWord_of_no_row {op : Half} (h : ∀ r ∈ opcodeRows, op &&& r.mask ≠ r.value) :
    decodeWord op = .error (.unknown op) := by
  obtain ⟨i, -, rfl⟩ | hunknown := decodeWord_answer op
  · exact absurd (beq_iff_eq.1 (Laws.EncodingRow.of_instr i)) (h _ i.row_mem_opcodeRows)
  · exact hunknown

/-- Bits that a mask keeps are those of the masked word. -/
theorem extractLsb'_of_mask {op m v : Half} {start len : Nat} (h : op &&& m = v)
    (hm : m.extractLsb' start len = BitVec.allOnes len) : op.extractLsb' start len = v.extractLsb' start len := by
  rw [← h, BitVec.extractLsb'_and, hm, BitVec.and_allOnes]

/-! ### A word that matches a row decodes to the instruction it is the word of

By the form of the row: `tnnn`, `txkk`, `txyn` with `n` an operand, `txyn` with `n` fixed, `txkk` with `kk` fixed. -/

section
variable {op v : Half} {i : Instr}

theorem decodeWord_of_row_nnn (h : op &&& 0xF000 = v) (hi : encode i = wordNNN (fieldT v) (fieldNNN op)) :
    decodeWord op = .ok i :=
  decodeWord_of_encode_eq (hi.trans (wordNNN_of_fields (extractLsb'_of_mask h rfl)))

theorem decodeWord_of_row_xkk (h : op &&& 0xF000 = v)
    (hi : encode i = wordXKK (fieldT v) (regOf (fieldX op)) (fieldKK op)) : decodeWord op = .ok i :=
  decodeWord_of_encode_eq (hi.trans (wordXKK_of_fields (extractLsb'_of_mask h rfl) rfl))

theorem decodeWord_of_row_xyn (h : op &&& 0xF000 = v)
    (hi : encode i = wordXYN (fieldT v) (regOf (fieldX op)) (regOf (fieldY op)) (fieldN op)) :
    decodeWord op = .ok i :=
  decodeWord_of_encode_eq (hi.trans (wordXYN_of_fields (extractLsb'_of_mask h rfl) rfl))

theorem decodeWord_of_row_xy (h : op &&& 0xF00F = v)
    (hi : encode i = wordXYN (fieldT v) (regOf (fieldX op)) (regOf (fieldY op)) (fieldN v)) :
    decodeWord op = .ok i :=
  decodeWord_of_encode_eq
    (hi.trans (wordXYN_of_fields (extractLsb'_of_mask h rfl) (extractLsb'_of_mask h rfl)))

theorem decodeWord_of_row_x (h : op &&& 0xF0FF = v)
    (hi : encode i = wordXKK (fieldT v) (regOf (fieldX op)) (fieldKK v)) : decodeWord op = .ok i :=
  decodeWord_of_encode_eq
    (hi.trans (wordXKK_of_fields (extractLsb'_of_mask h rfl) (extractLsb'_of_mask h rfl)))
end

/-- Settles O2: a word of a row is the word of the row's instruction, and a word that decodes is of some row. -/
theorem decodeFollowsOpcodeMap : Obligations.DecodeFollowsOpcodeMap := by
  intro op
  exact ⟨fun h => decodeWord_of_encode_eq h.symm, fun h => decodeWord_of_encode_eq h.symm,
    -- families 1 to 7
    (decodeWord_of_row_nnn · rfl), (decodeWord_of_row_nnn · rfl),
    (decodeWord_of_row_xkk · rfl), (decodeWord_of_row_xkk · rfl), (decodeWord_of_row_xy · rfl),
    (decodeWord_of_row_xkk · rfl), (decodeWord_of_row_xkk · rfl),
    -- family 8
    (decodeWord_of_row_xy · rfl), (decodeWord_of_row_xy · rfl), (decodeWord_of_row_xy · rfl),
    (decodeWord_of_row_xy · rfl), (decodeWord_of_row_xy · rfl), (decodeWord_of_row_xy · rfl),
    (decodeWord_of_row_xy · rfl), (decodeWord_of_row_xy · rfl), (decodeWord_of_row_xy · rfl),
    -- families 9 to D
    (decodeWord_of_row_xy · rfl), (decodeWord_of_row_nnn · rfl), (decodeWord_of_row_nnn · rfl),
    (decodeWord_of_row_xkk · rfl), (decodeWord_of_row_xyn · rfl),
    -- family E
    (decodeWord_of_row_x · rfl), (decodeWord_of_row_x · rfl),
    -- family F
    (decodeWord_of_row_x · rfl), (decodeWord_of_row_x · rfl), (decodeWord_of_row_x · rfl),
    (decodeWord_of_row_x · rfl), (decodeWord_of_row_x · rfl), (decodeWord_of_row_x · rfl),
    (decodeWord_of_row_x · rfl), (decodeWord_of_row_x · rfl), (decodeWord_of_row_x · rfl),
    decodeWord_of_no_row⟩

/-- Settles O1: closed words, by running the decoder. -/
theorem wordsDecodeAsWritten : Obligations.WordsDecodeAsWritten := by
  unfold Obligations.WordsDecodeAsWritten
  decide

end Sys2Proof
end

section
/-! PROOF. One step at the address pc holds: the instruction fetched, a fetch outside memory, an unknown word
(30_encoding.md R82, R84, R90; 60_exceptions.md R268, R269). -/

namespace Sys2Proof.Machine

section
variable {s : State}

/-- A fetch inside memory gives the word at pc and changes nothing. -/
theorem fetch_wordAtPc (h : s.pc.toNat ≤ 0xFFE) : fetch s = .go s.wordAtPc s :=
  fetch_in (Nat.succ_le_succ h)

/-- An instruction step inside memory executes the word at pc. -/
theorem stepOnce_wordAtPc (h : s.pc.toNat ≤ 0xFFE) : stepOnce s = execute s.wordAtPc s := by
  rw [stepOnce, fetch_wordAtPc h]

theorem stepOnce_of_decode_ok {i : Instr} (h : s.pc.toNat ≤ 0xFFE) (hi : decodeWord s.wordAtPc = .ok i) :
    stepOnce s = exec i s.advance := by
  rw [stepOnce_wordAtPc h, execute, hi]

theorem stepOnce_of_decode_error {e : DecodeError} (h : s.pc.toNat ≤ 0xFFE)
    (he : decodeWord s.wordAtPc = .error e) :
    stepOnce s = .next (s.advance.raise (.unknownOpcode s.wordAtPc)) := by
  rw [stepOnce_wordAtPc h, execute, he]

theorem stepOnce_of_fetch_out (h : 0xFFE < s.pc.toNat) :
    stepOnce s = .next (s.raise (.addressOutOfRange (max s.pc.toNat 0x1000))) := by
  rw [stepOnce, fetch_out (Nat.succ_lt_succ h)]

/-- A running core's step is one instruction step with the ports cleared, and the end of its slot. -/
theorem step_of_running (h : s.status = .running) : step s = onNext (stepOnce (s.setOut [])) closeSlot :=
  whenRunning_running _ h

/-- An instruction step that raises an error ends the batch (R268, R269). -/
theorem step_of_raise {t : State} {e : CoreError} (h : s.status = .running)
    (ht : stepOnce (s.setOut []) = .next (t.raise e)) : step s = .next ((t.raise e).setSlot 0) := by
  rw [step_of_running h, ht, onNext_next, closeSlot_halted (t.raise_isHalted e)]
end

/-- Settles O6: clearing the ports moves neither pc nor memory, so the word executed is the word at pc. -/
theorem stepExecutesFetchedInstruction : Obligations.StepExecutesFetchedInstruction := by
  intro s i hrun hpc hi
  rw [step_of_running hrun, stepOnce_of_decode_ok (s := s.setOut []) hpc hi]
  rfl

/-- Settles O7: the fetch raises on the state it starts in, at the larger of pc and the first address past the end. -/
theorem fetchOutsideMemoryHalts : Obligations.FetchOutsideMemoryHalts := by
  intro s hrun hpc
  have haddr : max s.pc.toNat 0x1000 = if s.pc.toNat = 0xFFF then 0x1000 else s.pc.toNat := by
    split <;> omega
  rw [step_of_raise hrun (stepOnce_of_fetch_out (s := s.setOut []) hpc), State.setOut_pc, haddr]
  rfl

/-- Settles O8: pc is advanced before the check for `Unknown`, which writes the status alone. -/
theorem unknownWordHalts : Obligations.UnknownWordHalts := by
  intro s e hrun hpc he
  rw [step_of_raise hrun (stepOnce_of_decode_error (s := s.setOut []) hpc he)]
  rfl

end Sys2Proof.Machine
end

section
/-! PROOF. Control flow: calls and returns, jumps, and skips, as meanings and through the step
(41_control_flow.md R110 to R120). -/

namespace Sys2Proof

/-- Families 5 and 9 have a row for low nibble 0 alone (R115, R116). -/
theorem decodeWord_xyn_unknown {t n : BitVec 4} (x y : Reg) (ht : t = 0x5 ∨ t = 0x9) (hn : n ≠ 0#4) :
    decodeWord (wordXYN t x y n) = .error (.unknown (wordXYN t x y n)) := by
  obtain rfl | rfl := ht
  · simp [decodeWord, hn]
  · simp [decodeWord, hn]

end Sys2Proof

namespace Sys2Proof.Machine

/-! ## Call and return (R110, R112) -/

section
variable {s : State}

theorem exec_ret_cons {a : Half} {rest : List Half} (h : s.stack = a :: rest) :
    exec .ret s = .next ((s.setStack rest).setPc a) := by
  simp [exec, execRet, popReturn, h]

theorem exec_ret_nil (h : s.stack = []) : exec .ret s = .next (s.raise .stackUnderflow) := by
  simp [exec, execRet, popReturn, h]

theorem State.stackFull_iff : s.stackFull = true ↔ s.cfg.stackLimit = some s.stack.length := beq_iff_eq

theorem exec_call_room (nnn : BitVec 12) (h : s.cfg.stackLimit ≠ some s.stack.length) :
    exec (.call nnn) s = .next ((s.setStack (s.pc :: s.stack)).setPc (addrOperand nnn)) := by
  simp [exec, execCall, pushReturn, State.stackFull_iff, h]

theorem exec_call_full (nnn : BitVec 12) (h : s.cfg.stackLimit = some s.stack.length) :
    exec (.call nnn) s = .next (s.raise .stackOverflow) := by
  simp [exec, execCall, pushReturn, State.stackFull_iff, h]
end

/-- Settles O24: the two cases of the stack; each update is of pc and the stack, or of the status alone. -/
theorem returnPopsOrUnderflows : Obligations.ReturnPopsOrUnderflows :=
  fun _ => ⟨fun _ _ h => exec_ret_cons h, fun h => exec_ret_nil h⟩

/-- Settles O25: room on the stack or none. -/
theorem callPushesOrOverflows : Obligations.CallPushesOrOverflows := by
  intro s nnn
  refine ⟨fun h => ?_, fun h => exec_call_full nnn h⟩
  rw [exec_call_room nnn h, addrOperand_eq_ofNat]
  rfl

/-- Settles O26: the stack CALL leaves has the advanced pc on top of the caller's stack, so RET puts both back. -/
theorem callThenReturnRestores : Obligations.CallThenReturnRestores :=
  fun s nnn _ h => ⟨_, exec_call_room nnn h, rfl, exec_ret_cons (a := s.pc) (rest := s.stack) rfl⟩

/-! ## Jumps (R111, R117) -/

/-- Settles O27: the word is the encoding of JP, and its target is the operand zero-extended. -/
theorem jumpTakesOperand : Obligations.JumpTakesOperand := by
  intro s nnn
  refine ⟨decodeWord_encode (.jp nnn), ?_⟩
  rw [exec_jp, addrOperand_eq_ofNat]
  rfl

/-- A 12-bit address plus a byte does not wrap in 16 bits: it is at most 0x10FE (R117). -/
theorem toNat_addrOperand_add_wide (nnn : BitVec 12) (b : Byte) :
    (addrOperand nnn + wide b).toNat = nnn.toNat + b.toNat := by
  rw [addrOperand_add_wide, BitVec.toNat_ofNat]
  exact Nat.mod_eq_of_lt (by omega)

/-- Settles O28: the sum fits pc. -/
theorem indexedJumpAddsV0 : Obligations.IndexedJumpAddsV0 :=
  fun s nnn => ⟨_, exec_jpV0 s nnn, rfl, toNat_addrOperand_add_wide nnn (s.reg 0)⟩

/-! ## Skips (R113 to R116) -/

/-- A skip's new pc as the statements write it: the state with pc + 2, or the state as it was. -/
theorem State.setPc_ite (s : State) (c : Prop) [Decidable c] :
    s.setPc (if c then s.pc + 2 else s.pc) = if c then { s with pc := s.pc + 2 } else s := by
  split <;> rfl

theorem State.setPc_ite_not (s : State) (c : Prop) [Decidable c] :
    s.setPc (if c then s.pc else s.pc + 2) = if ¬ c then { s with pc := s.pc + 2 } else s := by
  rw [← State.setPc_ite, ite_not]

/-- Settles O29: both words are encodings, and each skip writes pc alone. -/
theorem skipsOnImmediate : Obligations.SkipsOnImmediate := by
  refine fun s x kk => ⟨decodeWord_encode (.seImm x kk), decodeWord_encode (.sneImm x kk), ?_, ?_⟩
  · rw [exec_seImm, State.setPc_ite]
  · rw [exec_sneImm, State.setPc_ite_not]

/-- Settles O30: as O29, and with another low nibble neither word is of a row. -/
theorem skipsOnRegisters : Obligations.SkipsOnRegisters := by
  refine fun s x y => ⟨decodeWord_encode (.seReg x y), decodeWord_encode (.sneReg x y),
    fun n hn => ⟨decodeWord_xyn_unknown x y (.inl rfl) hn, decodeWord_xyn_unknown x y (.inr rfl) hn⟩, ?_, ?_⟩
  · rw [exec_seReg, State.setPc_ite]
  · rw [exec_sneReg, State.setPc_ite_not]

/-! ## Skips through the step (R118) -/

/-- Inside memory neither the common increment nor a skip wraps (R90, R118). -/
theorem toNat_skip_pc {p : Half} (hp : p.toNat ≤ 0xFFE) (c : Prop) [Decidable c] :
    (if c then p + 2 + 2 else p + 2).toNat = p.toNat + if c then 4 else 2 := by
  split <;> bv_omega

/-- The end of a slot moves neither pc nor the status: the tick writes timers and ports (R275 to R277). -/
theorem closeSlot_pc_status (s : State) : (closeSlot s).pc = s.pc ∧ (closeSlot s).status = s.status :=
  closeSlot_keeps (P := fun t => t.pc = s.pc ∧ t.status = s.status) s (fun _ => ⟨rfl, rfl⟩) fun _ _ _ _ => ⟨rfl, rfl⟩

section
variable {s : State} {i : Instr} {c : Prop} [Decidable c]

/-- An instruction that skips on `c`, through the step: pc ends 4 or 2 after its own address, and the core runs on. -/
theorem step_of_skip (hrun : s.status = .running) (hpc : s.pc.toNat ≤ 0xFFE) (hi : decodeWord s.wordAtPc = .ok i)
    (h : exec i (s.setOut []).advance =
      .next ((s.setOut []).advance.setPc (if c then s.pc + 2 + 2 else s.pc + 2))) :
    ∃ t, step s = .next t ∧ t.status = .running ∧ t.pc.toNat = s.pc.toNat + if c then 4 else 2 := by
  obtain ⟨hpc', hstatus⟩ :=
    closeSlot_pc_status ((s.setOut []).advance.setPc (if c then s.pc + 2 + 2 else s.pc + 2))
  refine ⟨_, ?_, hstatus.trans hrun, ?_⟩
  · rw [step_of_running hrun, stepOnce_of_decode_ok (s := s.setOut []) hpc hi, h, onNext_next]
  · rw [hpc', State.setPc_pc, toNat_skip_pc hpc]

/-- An instruction that skips unless `c`, through the step. -/
theorem step_of_skip_unless (hrun : s.status = .running) (hpc : s.pc.toNat ≤ 0xFFE)
    (hi : decodeWord s.wordAtPc = .ok i)
    (h : exec i (s.setOut []).advance =
      .next ((s.setOut []).advance.setPc (if c then s.pc + 2 else s.pc + 2 + 2))) :
    ∃ t, step s = .next t ∧ t.status = .running ∧ t.pc.toNat = s.pc.toNat + if c then 2 else 4 := by
  rw [← ite_not] at h
  rw [← ite_not]
  exact step_of_skip hrun hpc hi h
end

/-- Settles O31: each skip's meaning on the advanced state, whose registers are those of the state before the step. -/
theorem skipDistanceIsFour : Obligations.SkipDistanceIsFour := fun _ x y kk hrun hpc =>
  ⟨fun hi => step_of_skip hrun hpc hi (exec_seImm _ x kk),
    fun hi => step_of_skip_unless hrun hpc hi (exec_sneImm _ x kk),
    fun hi => step_of_skip hrun hpc hi (exec_seReg _ x y),
    fun hi => step_of_skip_unless hrun hpc hi (exec_sneReg _ x y)⟩

end Sys2Proof.Machine
end

section
/-! PROOF. Arithmetic and logic (42_alu.md R140 to R153): the results and flags as numbers, and the write of VF followed by
the write of Vx that 8xy4 to 8xyE share (R153). -/

namespace Sys2Proof.Machine

/-! ## Byte results as numbers (R152) -/

section
variable (a b : Byte)

theorem add_eq_ofNat_toNat : a + b = BitVec.ofNat 8 (a.toNat + b.toNat) := by
  simp [BitVec.ofNat_add]

theorem toNat_byte_sub : (a - b).toNat = (256 + a.toNat - b.toNat) % 256 := by
  rw [BitVec.toNat_sub]
  omega

theorem toNat_byte_shiftRight_one : (a >>> 1).toNat = a.toNat / 2 := by
  simp [Nat.shiftRight_eq_div_pow]

theorem toNat_byte_shiftLeft_one : (a <<< 1).toNat = 2 * a.toNat % 256 := by
  simp [Nat.shiftLeft_eq, Nat.mul_comm]

theorem carryFlag_eq_ite : carryFlag a b = if a.toNat + b.toNat > 255 then 1 else 0 := by
  simp [carryFlag, flagOf]

theorem toNat_greaterFlag : (greaterFlag a b).toNat = if a.toNat > b.toNat then 1 else 0 := by
  simp only [greaterFlag, flagOf, decide_eq_true_eq]
  split <;> rfl

theorem toNat_shiftOutRight : (shiftOutRight a).toNat = a.toNat % 2 := by
  simp [shiftOutRight]

theorem toNat_shiftOutLeft : (shiftOutLeft a).toNat = a.toNat / 128 := by
  have h : a.toNat / 128 < 2 := by omega
  simp [shiftOutLeft, Nat.shiftRight_eq_div_pow, Nat.mod_eq_of_lt h]
end

/-! ## The write of VF, then of Vx (R15, R153) -/

section
variable (s : State) {r x : Reg} (f b : Byte)

theorem State.reg_setVF_setReg_vf (hx : x ≠ Reg.vf) : ((s.setReg Reg.vf f).setReg x b).reg Reg.vf = f := by
  rw [State.reg_setReg_other _ _ _ _ hx.symm, State.reg_setReg_same]

theorem State.reg_setVF_setReg_other (hrx : r ≠ x) (hrf : r ≠ Reg.vf) :
    ((s.setReg Reg.vf f).setReg x b).reg r = s.reg r := by
  rw [State.reg_setReg_other _ _ _ _ hrx, State.reg_setReg_other _ _ _ _ hrf]

/-- A difference formed after the write of VF: an operand that is VF reads as the flag `k`, any other as it was (the
spec's decision D9). -/
theorem State.toNat_sub_setVF {k : Nat} (hf : f.toNat = k) (m n : Reg) :
    let d := ((s.setReg Reg.vf f).reg m - (s.setReg Reg.vf f).reg n).toNat
    (m ≠ Reg.vf → n ≠ Reg.vf → d = (256 + (s.reg m).toNat - (s.reg n).toNat) % 256) ∧
    (m ≠ Reg.vf → n = Reg.vf → d = (256 + (s.reg m).toNat - k) % 256) ∧
    (m = Reg.vf → n ≠ Reg.vf → d = (256 + k - (s.reg n).toNat) % 256) ∧
    (m = Reg.vf → n = Reg.vf → d = 0) := by
  subst hf
  simp only [toNat_byte_sub, State.reg_setReg]
  refine ⟨fun hm hn => ?_, fun hm hn => ?_, fun hm hn => ?_, fun hm hn => ?_⟩
  · rw [if_neg hm, if_neg hn]
  · rw [if_neg hm, if_pos hn]
  · rw [if_pos hm, if_neg hn]
  · rw [if_pos hm, if_pos hn, Nat.add_sub_cancel]
end

/-! ## Writes of Vx alone (R140 to R145, R151) -/

/-- Settles O32: both words are encodings, and each load is a write of Vx. -/
theorem loadsWriteDestination : Obligations.LoadsWriteDestination :=
  fun s x y kk =>
    ⟨decodeWord_encode (.ldImm x kk), decodeWord_encode (.ldReg x y), exec_ldImm s x kk, exec_ldReg s x y⟩

/-- Settles O33: the byte sum is the sum of the numbers, taken mod 256. -/
theorem addImmediateWrapsNoFlag : Obligations.AddImmediateWrapsNoFlag := by
  refine fun s x kk => ⟨decodeWord_encode (.addImm x kk), ?_⟩
  rw [exec_addImm, add_eq_ofNat_toNat]
  rfl

/-- Settles O34: the three words are encodings, and each operation is a write of Vx. -/
theorem logicWritesDestination : Obligations.LogicWritesDestination :=
  fun s x y =>
    ⟨decodeWord_encode (.or x y), decodeWord_encode (.and x y), decodeWord_encode (.xor x y),
      exec_or s x y, exec_and s x y, exec_xor s x y⟩

/-- Settles O39: one draw, masked; a zero mask leaves nothing of it. -/
theorem randomByteIsMasked : Obligations.RandomByteIsMasked := by
  refine fun s x kk => ⟨exec_rnd s x kk, ?_⟩
  have hzero : Config.randomByte s.draws &&& (0 : Byte) = 0 := BitVec.and_zero
  rw [exec_rnd, hzero]
  rfl

/-! ## Results with a flag (R146 to R150) -/

/-- Settles O35: the sum is bound before the flag is written, so where x is VF it replaces the carry. -/
theorem addSetsCarry : Obligations.AddSetsCarry := by
  intro s x y
  refine ⟨_, exec_addReg s x y, rfl, ?_, fun hx => ?_, fun r hrx hrf => s.reg_setVF_setReg_other _ _ hrx hrf⟩
  · rw [State.reg_setReg_same, BitVec.toNat_add]
  · rw [s.reg_setVF_setReg_vf _ _ hx, carryFlag_eq_ite]

/-- Settles O36: the flag is written first, and the difference reads the registers after that write. -/
theorem subtractSetsStrictFlag : Obligations.SubtractSetsStrictFlag := by
  intro s x y
  refine ⟨_, exec_sub s x y, rfl, fun r hrx hrf => s.reg_setVF_setReg_other _ _ hrx hrf, fun hx => ?_, ?_⟩
  · rw [s.reg_setVF_setReg_vf _ _ hx, toNat_greaterFlag]
  · rw [State.reg_setReg_same]
    exact s.toNat_sub_setVF _ (toNat_greaterFlag (s.reg x) (s.reg y)) x y

/-- Settles O37: as O36 with the operands exchanged, and with them the two clauses where one operand is VF. -/
theorem reverseSubtractSetsStrictFlag : Obligations.ReverseSubtractSetsStrictFlag := by
  intro s x y
  obtain ⟨hneither, hx_vf, hy_vf, hboth⟩ := s.toNat_sub_setVF _ (toNat_greaterFlag (s.reg y) (s.reg x)) y x
  refine ⟨_, exec_subn s x y, rfl, fun r hrx hrf => s.reg_setVF_setReg_other _ _ hrx hrf, fun hx => ?_, ?_⟩
  · rw [s.reg_setVF_setReg_vf _ _ hx, toNat_greaterFlag]
  · rw [State.reg_setReg_same]
    exact ⟨fun hx hy => hneither hy hx, fun hx hy => hy_vf hy hx, fun hx hy => hx_vf hy hx, fun hx hy => hboth hy hx⟩

/-- Settles O38: where x is VF, the shift is of the flag just written, 0 or 1. -/
theorem shiftsMoveOneBitOut : Obligations.ShiftsMoveOneBitOut := by
  intro s x y
  refine ⟨⟨_, exec_shr s x y, rfl, fun r hrx hrf => s.reg_setVF_setReg_other _ _ hrx hrf, fun hx => ⟨?_, ?_⟩, ?_⟩,
    ⟨_, exec_shl s x y, rfl, fun r hrx hrf => s.reg_setVF_setReg_other _ _ hrx hrf, fun hx => ⟨?_, ?_⟩, ?_⟩⟩
  · rw [State.reg_setReg_same, State.reg_setReg_other _ _ _ _ hx, toNat_byte_shiftRight_one]
  · rw [s.reg_setVF_setReg_vf _ _ hx, toNat_shiftOutRight]
  · rintro rfl
    rw [State.reg_setReg_same, State.reg_setReg_same, toNat_byte_shiftRight_one, toNat_shiftOutRight]
    omega
  · rw [State.reg_setReg_same, State.reg_setReg_other _ _ _ _ hx, toNat_byte_shiftLeft_one]
  · rw [s.reg_setVF_setReg_vf _ _ hx, toNat_shiftOutLeft]
  · rintro rfl
    rw [State.reg_setReg_same, State.reg_setReg_same, toNat_byte_shiftLeft_one, toNat_shiftOutLeft]
    omega

end Sys2Proof.Machine
end

section
/-! PROOF. Index register and memory (43_index_memory.md R180 to R186): what is written to I, and what Fx33, Fx55 and Fx65
leave, inside memory and past its end. -/

namespace Sys2Proof.Machine

/-! ## Writes of I (R180 to R182) -/

theorem wide_eq_ofNat (b : Byte) : wide b = BitVec.ofNat 16 b.toNat :=
  (BitVec.ofNat_toNat 16 b).symm

/-- Settles O40: the three words are encodings, and each value, taken as a number, is the one written to I. -/
theorem indexRegisterResults : Obligations.IndexRegisterResults := by
  intro s nnn x
  have hsum : s.i + wide (s.reg x) = BitVec.ofNat 16 ((s.i.toNat + (s.reg x).toNat) % 65536) := by
    apply BitVec.eq_of_toNat_eq
    simp [wide]
  have hprod : wide (s.reg x) * 5 = BitVec.ofNat 16 ((s.reg x).toNat * 5) := by
    rw [wide_eq_ofNat, BitVec.ofNat_mul]
    rfl
  refine ⟨decodeWord_encode (.ldI nnn), decodeWord_encode (.addI x), decodeWord_encode (.ldF x), ?_, ?_, ?_⟩
  · rw [exec_ldI, addrOperand_eq_ofNat]
    rfl
  · rw [exec_addI, hsum]
    rfl
  · rw [exec_ldF, hprod]
    rfl

/-! ## Bytes stored from I upwards -/

/-- The state after bytes are stored at I, I + 1, and so on. -/
def State.storeBytes (s : State) (bs : List Byte) : State :=
  s.setMem (Memory.writeList s.cfg.font s.mem s.i.toNat bs)

section
variable {s : State} {bs : List Byte} {a k : Nat} {b : Byte}

theorem State.byteAt_storeBytes_in (h : bs[k]? = some b) : (s.storeBytes bs).byteAt (s.i.toNat + k) = b := by
  simp [State.byteAt, State.storeBytes, Memory.read_writeList, h]

theorem State.byteAt_storeBytes_first (h : bs[0]? = some b) : (s.storeBytes bs).byteAt s.i.toNat = b :=
  State.byteAt_storeBytes_in h

theorem State.byteAt_storeBytes_outside (h : a < s.i.toNat ∨ s.i.toNat + bs.length ≤ a) :
    (s.storeBytes bs).byteAt a = s.byteAt a := by
  simp only [State.byteAt, State.storeBytes, State.setMem_cfg, State.setMem_mem, Memory.read_writeList]
  split
  · have hend : bs.length ≤ a - s.i.toNat := by omega
    rw [List.getElem?_eq_none hend, Option.getD_none]
  · rfl
end

/-! ## The first address past the end (R271) -/

section
variable {s : State} {k n : Nat}

/-- Of the accesses at I up to I + n, one of them past the end, the first past the end is at 0x1000, or at I itself. -/
theorem State.exists_first_out (h : addrMax < s.i.toNat + n) : ∃ k ≤ n, s.i.toNat + k = max s.i.toNat 0x1000 := by
  simp only [addrMax] at h
  exact ⟨0x1000 - s.i.toNat, by omega, by omega⟩

/-- The same for accesses of V0..Vx. -/
theorem State.exists_first_reg_out {x : Reg} (h : addrMax < s.i.toNat + x.val) :
    ∃ k ≤ x, s.i.toNat + k.val = max s.i.toNat 0x1000 := by
  obtain ⟨k, hkx, hk⟩ := State.exists_first_out h
  exact ⟨⟨k, by omega⟩, hkx, hk⟩

theorem State.first_out (h : s.i.toNat + k = max s.i.toNat 0x1000) : addrMax < s.i.toNat + k := by
  simp only [addrMax]
  omega

theorem State.in_of_lt_first_out {j : Nat} (h : s.i.toNat + k = max s.i.toNat 0x1000) (hj : j < k) :
    s.i.toNat + j ≤ addrMax := by
  simp only [addrMax]
  omega
end

/-! ## Decimal digits (R183) -/

/-- The bytes Fx33 stores: hundreds, tens, units. -/
def decimalDigits (v : Byte) : List Byte := [decimalDigit v 100, decimalDigit v 10, decimalDigit v 1]

theorem toNat_decimalDigit (v : Byte) (d : Nat) : (decimalDigit v d).toNat = v.toNat / d % 10 := by
  rw [decimalDigit, BitVec.toNat_ofNat]
  omega

/-- A byte has no thousands. -/
theorem toNat_decimalDigit_hundreds (v : Byte) : (decimalDigit v 100).toNat = v.toNat / 100 := by
  rw [toNat_decimalDigit]
  omega

theorem toNat_decimalDigit_units (v : Byte) : (decimalDigit v 1).toNat = v.toNat % 10 := by
  rw [toNat_decimalDigit, Nat.div_one]

section
variable {s : State} {x : Reg}

/-- Fx33 inside memory stores the three digits and changes nothing else. -/
theorem exec_ldB_in (h : s.i.toNat + 2 ≤ addrMax) :
    exec (.ldB x) s = .next (s.storeBytes (decimalDigits (s.reg x))) := by
  have h0 : s.i.toNat ≤ addrMax := by omega
  have h1 : s.i.toNat + 1 ≤ addrMax := by omega
  simp only [exec, execLdB, State.ea, Nat.add_zero, memWrite_in, Flow.bind_go, State.setMem_i, h0, h1, h]
  rfl

/-- Fx33 that leaves memory stores the digits before the first bad address and raises that address. -/
theorem exec_ldB_out {n : Nat} (hn : n ≤ 2) (h : s.i.toNat + n = max s.i.toNat 0x1000) :
    exec (.ldB x) s =
      .next ((s.storeBytes ((decimalDigits (s.reg x)).take n)).raise (.addressOutOfRange (s.i.toNat + n))) := by
  have hout := State.first_out h
  have hin : ∀ k < n, s.i.toNat + k ≤ addrMax := fun _ => State.in_of_lt_first_out h
  obtain rfl | rfl | rfl : n = 0 ∨ n = 1 ∨ n = 2 := by omega
  · have h0 : addrMax < s.i.toNat := hout
    simp only [exec, execLdB, State.ea, Nat.add_zero, memWrite_out, Flow.bind_stop, h0]
    rfl
  · have h0 : s.i.toNat ≤ addrMax := hin 0 (by decide)
    simp only [exec, execLdB, State.ea, Nat.add_zero, memWrite_in, memWrite_out, Flow.bind_go, Flow.bind_stop,
      State.setMem_i, h0, hout]
    rfl
  · have h0 : s.i.toNat ≤ addrMax := hin 0 (by decide)
    have h1 : s.i.toNat + 1 ≤ addrMax := hin 1 (by decide)
    simp only [exec, execLdB, State.ea, Nat.add_zero, memWrite_in, memWrite_out, Flow.bind_go, State.setMem_i,
      h0, h1, hout]
    rfl
end

/-- Settles O42: the bytes stored are the digits, each of them as a number. -/
theorem decimalDigitsStored : Obligations.DecimalDigitsStored := by
  intro s x h
  refine ⟨_, exec_ldB_in h, rfl, ?_, ?_, ?_, fun a ha => State.byteAt_storeBytes_outside ?_⟩
  · rw [State.byteAt_storeBytes_first rfl, toNat_decimalDigit_hundreds]
  · rw [State.byteAt_storeBytes_in (k := 1) rfl, toNat_decimalDigit]
  · rw [State.byteAt_storeBytes_in (k := 2) rfl, toNat_decimalDigit_units]
  · simp only [decimalDigits, List.length_cons, List.length_nil]
    omega

/-- Settles O43: as O42 with as many digits as there is room for. -/
theorem decimalDigitsPartWay : Obligations.DecimalDigitsPartWay := by
  intro s x h
  obtain ⟨n, hn, hfirst⟩ := State.exists_first_out h
  have hdigit (k : Nat) (hk : s.i.toNat + k ≤ 0xFFF) :
      ((decimalDigits (s.reg x)).take n)[k]? = (decimalDigits (s.reg x))[k]? :=
    List.getElem?_take_of_lt (by omega)
  refine ⟨_, exec_ldB_out hn hfirst, rfl, ?_, fun h0 => ?_, fun h1 => ?_, fun a ha => ?_⟩
  · rw [State.raise_status, hfirst]
  · rw [State.raise_byteAt, State.byteAt_storeBytes_first (hdigit 0 h0), toNat_decimalDigit_hundreds]
  · rw [State.raise_byteAt, State.byteAt_storeBytes_in (hdigit 1 h1), toNat_decimalDigit]
  · refine State.byteAt_storeBytes_outside ?_
    rw [List.length_take]
    omega

/-! ## Loops over the registers from V0 upwards (R184, R185) -/

section
variable {f : Unit → Reg → State → Flow Unit} {after : Nat → State} {n : Nat}

/-- A loop over the first `n` registers whose body takes `after k` to `after (k + 1)` at each Vk. -/
theorem fold_firstRegs (hn : n ≤ 16) (hf : ∀ k : Reg, k.val < n → f () k (after k.val) = .go () (after (k.val + 1))) :
    Flow.fold f ((List.finRange 16).take n) () (after 0) = .go () (after n) := by
  induction n with
  | zero => rfl
  | succ n ih =>
    rw [take_finRange_succ hn, Flow.fold_append, ih (by omega) fun k hk => hf k (by omega), Flow.bind_go,
      Flow.fold_cons, hf ⟨n, hn⟩ n.lt_succ_self]
    rfl

/-- The registers up to Vx begin with those below Vk and Vk, for each `k` up to `x`. -/
theorem regsUpTo_split {k x : Reg} (h : k ≤ x) : ∃ rest, regsUpTo x = (List.finRange 16).take k.val ++ k :: rest := by
  obtain ⟨rest, hrest⟩ : (List.finRange 16).take (k.val + 1) <+: regsUpTo x :=
    List.take_prefix_take_left (Nat.succ_le_succ h)
  refine ⟨rest, ?_⟩
  rw [← hrest, take_finRange_succ k.isLt, List.append_assoc, List.singleton_append]

/-- A loop over V0..Vx whose body takes those steps below Vk and stops at Vk. -/
theorem fold_regsUpTo_stop {k x : Reg} {e : CoreError} (hkx : k ≤ x)
    (hf : ∀ j : Reg, j.val < k.val → f () j (after j.val) = .go () (after (j.val + 1)))
    (hk : f () k (after k.val) = .stop e (after k.val)) :
    Flow.fold f (regsUpTo x) () (after 0) = .stop e (after k.val) := by
  obtain ⟨rest, hrest⟩ := regsUpTo_split hkx
  rw [hrest, Flow.fold_append, fold_firstRegs k.isLt.le hf, Flow.bind_go, Flow.fold_cons, hk, Flow.bind_stop]
end

/-! ## Registers stored (R184) -/

section
variable {s : State} {k x : Reg}

theorem storeReg_in (h : s.i.toNat + k.val ≤ addrMax) :
    storeReg () k (s.setMem (s.memWithRegs k.val)) = .go () (s.setMem (s.memWithRegs (k.val + 1))) := by
  rw [State.memWithRegs_succ k.isLt]
  exact memWrite_in h

theorem storeReg_out (h : addrMax < s.i.toNat + k.val) :
    storeReg () k (s.setMem (s.memWithRegs k.val)) =
      .stop (.addressOutOfRange (s.i.toNat + k.val)) (s.setMem (s.memWithRegs k.val)) := memWrite_out h

/-- Fx55 that leaves memory stores the registers before the first bad address and raises that address. -/
theorem exec_ldMemVx_out (hkx : k ≤ x) (h : s.i.toNat + k.val = max s.i.toNat 0x1000) :
    exec (.ldMemVx x) s =
      .next ((s.setMem (s.memWithRegs k.val)).raise (.addressOutOfRange (s.i.toNat + k.val))) := by
  have hloop := fold_regsUpTo_stop (after := fun n => s.setMem (s.memWithRegs n)) hkx
    (fun _ hj => storeReg_in (State.in_of_lt_first_out h hj)) (storeReg_out (State.first_out h))
  exact congrArg Flow.finish hloop

theorem State.byteAt_memWithRegs_outside {a n : Nat} (hn : n ≤ 16) (h : a < s.i.toNat ∨ s.i.toNat + n ≤ a) :
    (s.setMem (s.memWithRegs n)).byteAt a = s.byteAt a :=
  State.byteAt_storeBytes_outside (by rwa [State.length_firstRegs hn])
end

/-- Settles O44: the bytes stored are V0..Vx. -/
theorem registersStored : Obligations.RegistersStored := by
  intro s x h
  refine ⟨_, exec_ldMemVx_in h, rfl, fun k hk => ?_, fun a ha => ?_⟩
  · exact State.byteAt_memWithRegs (Nat.lt_succ_of_le hk)
  · exact State.byteAt_memWithRegs_outside x.isLt (by omega)

/-- Settles O45: the bytes stored are the registers below the first that does not fit. -/
theorem registersStoredPartWay : Obligations.RegistersStoredPartWay := by
  intro s x h
  obtain ⟨k, hkx, hfirst⟩ := State.exists_first_reg_out h
  refine ⟨_, exec_ldMemVx_out hkx hfirst, rfl, ?_, fun j hj => ?_, fun a ha => ?_⟩
  · rw [State.raise_status, hfirst]
  · exact State.byteAt_memWithRegs (by omega)
  · exact State.byteAt_memWithRegs_outside k.isLt.le (by omega)

/-! ## Registers loaded (R185) -/

/-- The state after the first `n` general registers are loaded from I upwards. -/
def State.loadRegs (s : State) (n : Nat) : State :=
  { s with v := Vector.ofFn fun k : Reg => if k.val < n then s.byteAt (s.i.toNat + k.val) else s.reg k }

section
variable {s : State} {k x : Reg}

theorem State.reg_loadRegs (n : Nat) :
    (s.loadRegs n).reg k = if k.val < n then s.byteAt (s.i.toNat + k.val) else s.reg k := by
  simp [State.reg, State.loadRegs]

theorem State.loadRegs_zero : s.loadRegs 0 = s := by
  have hv : (s.loadRegs 0).v = s.v := regs_ext fun k => State.reg_loadRegs 0
  exact congrArg (fun v => { s with v := v }) hv

/-- One more register loaded. -/
theorem State.loadRegs_succ :
    s.loadRegs (k.val + 1) = (s.loadRegs k.val).setReg k (s.byteAt (s.i.toNat + k.val)) := by
  have hv : (s.loadRegs (k.val + 1)).v = ((s.loadRegs k.val).setReg k (s.byteAt (s.i.toNat + k.val))).v := by
    refine regs_ext fun r => ?_
    change (s.loadRegs (k.val + 1)).reg r = ((s.loadRegs k.val).setReg k _).reg r
    rw [State.reg_setReg, State.reg_loadRegs, State.reg_loadRegs]
    obtain rfl | hne := eq_or_ne r k
    · rw [if_pos r.val.lt_succ_self, if_pos rfl]
    · have hval : r.val ≠ k.val := Fin.val_ne_of_ne hne
      have hiff : r.val < k.val + 1 ↔ r.val < k.val := by omega
      simp only [hne, hiff, if_false]
  exact congrArg (fun v => { s with v := v }) hv

theorem loadReg_in (h : s.i.toNat + k.val ≤ addrMax) :
    loadReg () k (s.loadRegs k.val) = .go () (s.loadRegs (k.val + 1)) := by
  rw [State.loadRegs_succ]
  exact congrArg (Flow.bind · _) (memRead_in h)

theorem loadReg_out (h : addrMax < s.i.toNat + k.val) :
    loadReg () k (s.loadRegs k.val) = .stop (.addressOutOfRange (s.i.toNat + k.val)) (s.loadRegs k.val) :=
  congrArg (Flow.bind · _) (memRead_out h)

/-- Fx65 inside memory loads V0..Vx and changes nothing else. -/
theorem exec_ldVxMem_in (h : s.i.toNat + x.val ≤ addrMax) :
    exec (.ldVxMem x) s = .next (s.loadRegs (x.val + 1)) := by
  have hloop := fold_firstRegs (after := s.loadRegs) x.isLt fun k hk => loadReg_in (by omega)
  rw [State.loadRegs_zero] at hloop
  exact congrArg Flow.finish hloop

/-- Fx65 that leaves memory loads the registers before the first bad address and raises that address. -/
theorem exec_ldVxMem_out (hkx : k ≤ x) (h : s.i.toNat + k.val = max s.i.toNat 0x1000) :
    exec (.ldVxMem x) s = .next ((s.loadRegs k.val).raise (.addressOutOfRange (s.i.toNat + k.val))) := by
  have hloop := fold_regsUpTo_stop (after := s.loadRegs) hkx
    (fun _ hj => loadReg_in (State.in_of_lt_first_out h hj)) (loadReg_out (State.first_out h))
  rw [State.loadRegs_zero] at hloop
  exact congrArg Flow.finish hloop
end

/-- Settles O46: the registers loaded are V0..Vx. -/
theorem registersLoaded : Obligations.RegistersLoaded := by
  intro s x h
  refine ⟨_, exec_ldVxMem_in h, rfl, fun k hk => ?_, fun k hk => ?_⟩
  · rw [State.reg_loadRegs, if_pos (Nat.lt_succ_of_le hk)]
  · rw [State.reg_loadRegs, if_neg (Nat.not_lt.2 hk)]

/-- Settles O47: the registers loaded are those below the first that does not fit. -/
theorem registersLoadedPartWay : Obligations.RegistersLoadedPartWay := by
  intro s x h
  obtain ⟨k, hkx, hfirst⟩ := State.exists_first_reg_out h
  refine ⟨_, exec_ldVxMem_out hkx hfirst, rfl, ?_, fun j hj => ?_, fun j hj => ?_⟩
  · rw [State.raise_status, hfirst]
  · rw [State.raise_reg, State.reg_loadRegs, if_pos (by omega)]
  · rw [State.raise_reg, State.reg_loadRegs, if_neg (by omega)]

end Sys2Proof.Machine
end

section
/-! PROOF. The display buffer and its instructions (44_display.md R200 to R213): the single wrap, Toggle, Clear, and a
sprite drawn bit by bit. -/

namespace Sys2Proof.Machine

/-! ## The single wrap (R200) -/

/-- The single wrap of a negative coordinate. -/
theorem wrap1_neg {c : Int} {d : Nat} (hc : c < 0) :
    wrap1 c d = if -(d : Int) ≤ c then some (c + d).toNat else none := by
  have hout : ¬ inRange c d = true := by rw [inRange_iff]; omega
  have hbelow : ¬ c ≥ d := by omega
  have hin : inRange (c + d) d = true ↔ -(d : Int) ≤ c := by rw [inRange_iff]; omega
  simp only [wrap1, if_neg hout, if_neg hbelow, hin]

theorem wrap1_of_lt {c d : Nat} (h : c < 2 * d) : wrap1 c d = some (wrapOnce c d) := by
  rw [wrap1_nat, if_pos h, wrapOnce]
  split <;> rfl

theorem wrap1_of_le {c d : Nat} (h : 2 * d ≤ c) : wrap1 c d = none := by
  rw [wrap1_nat, if_neg (by omega), if_neg (by omega)]

theorem wrapOnce_lt {c d : Nat} (h : c < 2 * d) : wrapOnce c d < d := wrap1_lt (wrap1_of_lt h)

/-- Settles O50: the wrap of a coordinate that is not negative, and of a negative one, each in its two cases. -/
theorem singleWrapAcceptsOneDimension : Obligations.SingleWrapAcceptsOneDimension := by
  intro c d _
  obtain hc | hc := lt_or_ge c 0
  · refine ⟨fun h => ?_, fun h => ?_, fun h _ => ?_, fun h => ?_⟩
    · omega
    · omega
    · rw [wrap1_neg hc, if_pos h]
    · rw [wrap1_neg hc, if_neg (by omega)]
  · lift c to Nat using hc
    refine ⟨fun _ h => ?_, fun h h' => ?_, fun _ h => ?_, fun h => ?_⟩
    · rw [wrap1_nat, if_pos (by omega), Int.toNat_natCast]
    · rw [wrap1_nat, if_neg (by omega), if_pos (by omega), Int.toNat_sub]
    · omega
    · exact wrap1_of_le (by omega)

/-! ## Toggle (R203) -/

section
variable {x y : Int} {s : State} {cx cy : Nat}

theorem toggle_column_out (hx : wrap1 x s.cfg.displayW = none) : toggle x y s = .stop (.dimension (.x x)) s := by
  simp only [toggle, hx]

theorem toggle_row_out (hx : wrap1 x s.cfg.displayW = some cx) (hy : wrap1 y s.cfg.displayH = none) :
    toggle x y s = .stop (.dimension (.y y)) s := by
  simp only [toggle, hx, hy]

theorem toggle_in (hx : wrap1 x s.cfg.displayW = some cx) (hy : wrap1 y s.cfg.displayH = some cy) :
    toggle x y s = .go (s.disp.cell cx cy) (s.setDisp (s.disp.setCell cx cy (!s.disp.cell cx cy))) := by
  simp only [toggle, hx, hy]
end

/-- Settles O51: each answer of Toggle by its wraps, and the one cell written by the law of the buffer. -/
theorem toggleInvertsOneCell : Obligations.ToggleInvertsOneCell := by
  intro x y s hd
  refine ⟨toggle_column_out, fun hx hy => ?_, fun cx cy hx hy => ?_⟩
  · obtain ⟨cx, hx⟩ := Option.ne_none_iff_exists'.1 hx
    exact toggle_row_out hx hy
  · exact ⟨_, toggle_in hx hy, rfl, Display.wf_setCell _ _ _ hd,
      Display.cell_setCell _ hd (wrap1_lt hx) (wrap1_lt hy)⟩

/-! ## Clear (R202) -/

/-- Settles O49: the buffer left is the blank one. -/
theorem clearUnsetsEveryCell : Obligations.ClearUnsetsEveryCell := by
  refine fun s => ⟨exec_cls s, fun t cx cy h => ?_⟩
  cases h
  exact Display.cell_blank _ _ _ _

/-! ## A sprite as one loop over its bits (R209)

The two loops of a sprite, over rows and over columns, are one loop over the bits numbered in drawing order, each of which
reads its byte: toggles leave memory and I, so reading a row's byte again for each of its bits gives the same byte. -/

/-- Bit `k` of a sprite: its byte is read, and its column is drawn. -/
def drawBit (x0 y0 : Nat) (erased : Bool) (k : Nat) (s : State) : Flow Bool :=
  (memRead (s.ea (k / 8)) s).bind fun b t => drawCol b x0 (y0 + k / 8) erased (k % 8) t

section
variable {σ κ ι : Type}

theorem Flow.fold_map (f : σ → κ → State → Flow σ) (g : ι → κ) (ks : List ι) (acc : σ) (s : State) :
    Flow.fold f (ks.map g) acc s = Flow.fold (fun a k => f a (g k)) ks acc s := by
  induction ks generalizing acc s with
  | nil => rfl
  | cons k ks ih => simp only [List.map_cons, Flow.fold_cons, ih]

/-- Two loops are one where a property of the state that the first body keeps makes the bodies agree. -/
theorem Flow.fold_congr {P : State → Prop} {f g : σ → κ → State → Flow σ} {ks : List κ}
    (hP : ∀ a k s, P s → P (f a k s).state) (hfg : ∀ a s, ∀ k ∈ ks, P s → f a k s = g a k s)
    (acc : σ) (s : State) (hs : P s) : Flow.fold f ks acc s = Flow.fold g ks acc s := by
  induction ks generalizing acc s with
  | nil => rfl
  | cons k ks ih =>
    have hkeep := hP acc k s hs
    rw [Flow.fold_cons, Flow.fold_cons, ← hfg acc s k List.mem_cons_self hs]
    cases hf : f acc k s with
    | go a t =>
      rw [hf] at hkeep
      exact ih (fun a s j hj => hfg a s j (List.mem_cons_of_mem _ hj)) a t hkeep
    | stop e t => rfl
end

/-- A column writes the buffer alone. -/
theorem drawCol_state (b : Byte) (x0 y : Nat) (erased : Bool) (col : Nat) (s : State) :
    ∃ d, (drawCol b x0 y erased col s).state = s.setDisp d := by
  unfold drawCol
  split
  · obtain ⟨-, e⟩ | ⟨_, -, -, e⟩ | ⟨_, _, -, -, e⟩ := toggle_cases ((x0 + col : Nat) : Int) y s <;> rw [e]
    · exact ⟨s.disp, rfl⟩
    · exact ⟨s.disp, rfl⟩
    · exact ⟨_, rfl⟩
  · exact ⟨s.disp, rfl⟩

theorem drawCol_keepsByte {s t : State} {a : Nat} (b : Byte) (x0 y : Nat) (erased : Bool) (col : Nat)
    (h : s.KeepsByte a t) : s.KeepsByte a (drawCol b x0 y erased col t).state := by
  obtain ⟨d, e⟩ := drawCol_state b x0 y erased col t
  rw [e]
  exact h

/-- A row of a sprite, bit by bit. -/
theorem drawRow_eq_fold_drawBit (x0 y0 : Nat) (erased : Bool) (row : Nat) (s : State) :
    drawRow x0 y0 erased row s = Flow.fold (drawBit x0 y0) ((List.range 8).map (8 * row + ·)) erased s := by
  have hrow : ∀ col < 8, (8 * row + col) / 8 = row := fun col hcol => by omega
  have hcol : ∀ col < 8, (8 * row + col) % 8 = col := fun col hcol => by omega
  rw [Flow.fold_map]
  obtain hin | hout := le_or_gt (s.ea row) addrMax
  · rw [drawRow, memRead_in hin, Flow.bind_go]
    refine Flow.fold_congr (fun _ _ _ => drawCol_keepsByte _ _ _ _ _) (fun a t col hmem ht => ?_) _ _
      (State.KeepsByte.refl (s.ea row) s)
    obtain ⟨hi, hbyte⟩ := ht
    have hea : t.ea row = s.ea row := by rw [State.ea, hi, State.ea]
    have hlt := List.mem_range.1 hmem
    rw [drawBit, hrow col hlt, hcol col hlt, hea, memRead_in hin, hbyte, Flow.bind_go]
  · rw [drawRow, memRead_out hout, List.range_succ_eq_map, Flow.fold_cons, drawBit, hrow 0 (by decide),
      memRead_out hout]
    rfl

/-- A sprite of height `n` is the loop over its `8 n` bits. -/
theorem drawSprite_eq_fold_drawBit (x0 y0 n : Nat) (s : State) :
    drawSprite x0 y0 n s = Flow.fold (drawBit x0 y0) (List.range (8 * n)) false s := by
  induction n with
  | zero => rfl
  | succ n ih =>
    rw [drawSprite] at ih
    rw [drawSprite, List.range_succ, Flow.fold_append, ih, Nat.mul_succ, List.range_add, Flow.fold_append]
    congr 1
    funext erased t
    rw [Flow.fold_cons, drawRow_eq_fold_drawBit]
    cases Flow.fold (drawBit x0 y0) ((List.range 8).map (8 * n + ·)) erased t <;> rfl

/-! ## The buffer and the collision after some of a sprite's bits (R209, R210) -/

/-- The buffer after the first `k` bits of a sprite, each of which falls inside it. -/
def State.dispAfter (s : State) (x0 y0 : Nat) : Nat → Display
  | 0 => s.disp
  | k + 1 =>
    let d := s.dispAfter x0 y0 k
    let cx := wrapOnce (x0 + k % 8) s.cfg.displayW
    let cy := wrapOnce (y0 + k / 8) s.cfg.displayH
    if s.spriteLit k then d.setCell cx cy (!d.cell cx cy) else d

/-- Whether one of the first `k` bits of a sprite erased its cell. -/
def State.erasedAfter (s : State) (x0 y0 : Nat) : Nat → Bool
  | 0 => false
  | k + 1 => s.erasedAfter x0 y0 k || (s.spriteLit k &&
      (s.dispAfter x0 y0 k).cell (wrapOnce (x0 + k % 8) s.cfg.displayW) (wrapOnce (y0 + k / 8) s.cfg.displayH))

/-- The state after the first `k` bits of a sprite. -/
def State.drawBits (s : State) (x0 y0 k : Nat) : State := s.setDisp (s.dispAfter x0 y0 k)

/-- The state a whole draw leaves: its bits drawn, then VF written. -/
def State.afterDraw (s : State) (x0 y0 count : Nat) : State :=
  (s.drawBits x0 y0 count).setVF (collisionFlag (s.erasedAfter x0 y0 count))

/-- The error of a bit that cannot be drawn: the byte's address, else the column, else the row (R271). -/
def State.bitError (s : State) (x0 y0 k : Nat) : CoreError :=
  if addrMax < s.i.toNat + k / 8 then .addressOutOfRange (s.i.toNat + k / 8)
  else if 2 * s.cfg.displayW ≤ x0 + k % 8 then .dimension (.x (x0 + k % 8 : Nat))
  else .dimension (.y (y0 + k / 8 : Nat))

section
variable {s : State} {x0 y0 k : Nat}

theorem State.dispAfter_lit (h : s.spriteLit k = true) : s.dispAfter x0 y0 (k + 1) =
    (s.dispAfter x0 y0 k).setCell (wrapOnce (x0 + k % 8) s.cfg.displayW) (wrapOnce (y0 + k / 8) s.cfg.displayH)
      (!(s.dispAfter x0 y0 k).cell (wrapOnce (x0 + k % 8) s.cfg.displayW) (wrapOnce (y0 + k / 8) s.cfg.displayH)) :=
  if_pos h

theorem State.dispAfter_unlit (h : ¬ s.spriteLit k = true) : s.dispAfter x0 y0 (k + 1) = s.dispAfter x0 y0 k :=
  if_neg h

theorem State.erasedAfter_lit (h : s.spriteLit k = true) : s.erasedAfter x0 y0 (k + 1) =
    (s.erasedAfter x0 y0 k ||
      (s.dispAfter x0 y0 k).cell (wrapOnce (x0 + k % 8) s.cfg.displayW) (wrapOnce (y0 + k / 8) s.cfg.displayH)) := by
  rw [State.erasedAfter, h, Bool.true_and]

theorem State.erasedAfter_unlit (h : ¬ s.spriteLit k = true) :
    s.erasedAfter x0 y0 (k + 1) = s.erasedAfter x0 y0 k := by
  rw [State.erasedAfter, Bool.eq_false_of_not_eq_true h, Bool.false_and, Bool.or_false]

/-! ## One bit -/

/-- A bit whose byte is in memory is drawn with that byte, which no toggle before it has changed. -/
theorem drawBit_in (erased : Bool) (hin : s.i.toNat + k / 8 ≤ addrMax) :
    drawBit x0 y0 erased k (s.drawBits x0 y0 k) =
      drawCol (s.byteAt (s.i.toNat + k / 8)) x0 (y0 + k / 8) erased (k % 8) (s.drawBits x0 y0 k) :=
  congrArg (Flow.bind · _) (memRead_in hin)

theorem drawBit_out (erased : Bool) (hout : addrMax < s.i.toNat + k / 8) :
    drawBit x0 y0 erased k (s.drawBits x0 y0 k) =
      .stop (.addressOutOfRange (s.i.toNat + k / 8)) (s.drawBits x0 y0 k) :=
  congrArg (Flow.bind · _) (memRead_out hout)

theorem drawBit_unlit (erased : Bool) (hin : s.i.toNat + k / 8 ≤ addrMax) (hlit : ¬ s.spriteLit k = true) :
    drawBit x0 y0 erased k (s.drawBits x0 y0 k) = .go erased (s.drawBits x0 y0 k) :=
  (drawBit_in erased hin).trans (if_neg hlit)

theorem drawBit_lit (erased : Bool) (hin : s.i.toNat + k / 8 ≤ addrMax) (hlit : s.spriteLit k = true) :
    drawBit x0 y0 erased k (s.drawBits x0 y0 k) =
      (toggle (x0 + k % 8 : Nat) (y0 + k / 8 : Nat) (s.drawBits x0 y0 k)).bind fun e t => .go (erased || e) t :=
  (drawBit_in erased hin).trans (if_pos hlit)

/-- A bit that can be drawn takes the buffer and the collision one bit further. -/
theorem drawBit_fits (h : s.bitFits x0 y0 k) :
    drawBit x0 y0 (s.erasedAfter x0 y0 k) k (s.drawBits x0 y0 k) =
      .go (s.erasedAfter x0 y0 (k + 1)) (s.drawBits x0 y0 (k + 1)) := by
  obtain ⟨hin, hwraps⟩ := h
  by_cases hlit : s.spriteLit k = true
  · obtain ⟨hx, hy⟩ := hwraps hlit
    rw [drawBit_lit _ hin hlit, toggle_in (s := s.drawBits x0 y0 k) (wrap1_of_lt hx) (wrap1_of_lt hy), Flow.bind_go,
      State.erasedAfter_lit hlit, State.drawBits, State.drawBits, State.dispAfter_lit hlit]
    rfl
  · rw [drawBit_unlit _ hin hlit, State.erasedAfter_unlit hlit, State.drawBits, State.drawBits,
      State.dispAfter_unlit hlit]

/-- A bit that cannot be drawn raises its error and draws nothing. -/
theorem drawBit_stops (erased : Bool) (h : ¬ s.bitFits x0 y0 k) :
    drawBit x0 y0 erased k (s.drawBits x0 y0 k) = .stop (s.bitError x0 y0 k) (s.drawBits x0 y0 k) := by
  obtain hout | hin := lt_or_ge addrMax (s.i.toNat + k / 8)
  · rw [drawBit_out erased hout, State.bitError, if_pos hout]
  · obtain ⟨hlit, hwraps⟩ := Classical.not_imp.1 fun himp => h ⟨hin, himp⟩
    rw [drawBit_lit _ hin hlit, State.bitError, if_neg (Nat.not_lt.2 hin)]
    obtain hx | hx := le_or_gt (2 * s.cfg.displayW) (x0 + k % 8)
    · rw [toggle_column_out (s := s.drawBits x0 y0 k) (wrap1_of_le hx), if_pos hx]
      rfl
    · have hy : 2 * s.cfg.displayH ≤ y0 + k / 8 := Nat.not_lt.1 fun hy => hwraps ⟨hx, hy⟩
      rw [toggle_row_out (s := s.drawBits x0 y0 k) (wrap1_of_lt hx) (wrap1_of_le hy), if_neg (Nat.not_le.2 hx)]
      rfl
end

/-! ## All the bits, or those before the first that cannot be drawn -/

section
variable {s : State} {x0 y0 count : Nat}

theorem fold_drawBit_fits (h : ∀ k, k < count → s.bitFits x0 y0 k) :
    Flow.fold (drawBit x0 y0) (List.range count) false s =
      .go (s.erasedAfter x0 y0 count) (s.drawBits x0 y0 count) := by
  induction count with
  | zero => rfl
  | succ count ih =>
    rw [List.range_succ, Flow.fold_append, ih fun k hk => h k (Nat.lt_succ_of_lt hk), Flow.bind_go, Flow.fold_cons,
      drawBit_fits (h count count.lt_succ_self)]
    rfl

theorem fold_drawBit_stops {bad : Nat} (hbad : bad < count) (h : ∀ k, k < bad → s.bitFits x0 y0 k)
    (hstop : ¬ s.bitFits x0 y0 bad) :
    Flow.fold (drawBit x0 y0) (List.range count) false s = .stop (s.bitError x0 y0 bad) (s.drawBits x0 y0 bad) := by
  obtain ⟨m, rfl⟩ := Nat.exists_eq_add_of_lt hbad
  rw [Nat.add_assoc, List.range_add, List.range_succ_eq_map, List.map_cons, Nat.add_zero, Flow.fold_append,
    fold_drawBit_fits h, Flow.bind_go, Flow.fold_cons, drawBit_stops _ hstop, Flow.bind_stop]

/-- A draw all of whose bits can be drawn. -/
theorem exec_drw_fits {x y : Reg} {n : BitVec 4}
    (h : ∀ k, k < 8 * n.toNat → s.bitFits (s.reg x).toNat (s.reg y).toNat k) :
    exec (.drw x y n) s = .next (s.afterDraw (s.reg x).toNat (s.reg y).toNat (8 * n.toNat)) := by
  rw [exec, execDrw, drawSprite_eq_fold_drawBit, fold_drawBit_fits h]
  rfl

/-- A draw that halts at bit `bad`. -/
theorem exec_drw_stops {x y : Reg} {n : BitVec 4} {bad : Nat} (hbad : bad < 8 * n.toNat)
    (h : ∀ k, k < bad → s.bitFits (s.reg x).toNat (s.reg y).toNat k)
    (hstop : ¬ s.bitFits (s.reg x).toNat (s.reg y).toNat bad) :
    exec (.drw x y n) s = .next ((s.drawBits (s.reg x).toNat (s.reg y).toNat bad).raise
      (s.bitError (s.reg x).toNat (s.reg y).toNat bad)) := by
  rw [exec, execDrw, drawSprite_eq_fold_drawBit, fold_drawBit_stops hbad h hstop]
  rfl

/-! ## What the bits drawn leave, cell by cell -/

/-- The buffer after some bits is the one whose cells are inverted once for each of them that falls on the cell. -/
theorem State.drawn_dispAfter (hd : Display.wf s.cfg.displayW s.cfg.displayH s.disp)
    (h : ∀ k, k < count → s.bitFits x0 y0 k) :
    Display.wf s.cfg.displayW s.cfg.displayH (s.dispAfter x0 y0 count) ∧
      ∀ cx cy, (s.dispAfter x0 y0 count).cell cx cy = s.cellAfter x0 y0 cx cy count := by
  induction count with
  | zero => exact ⟨hd, fun _ _ => rfl⟩
  | succ count ih =>
    obtain ⟨hwf, hcell⟩ := ih fun k hk => h k (Nat.lt_succ_of_lt hk)
    by_cases hlit : s.spriteLit count = true
    · obtain ⟨hx, hy⟩ := (h count count.lt_succ_self).2 hlit
      rw [State.dispAfter_lit hlit]
      refine ⟨Display.wf_setCell _ _ _ hwf, fun cx cy => ?_⟩
      rw [Display.cell_setCell _ hwf (wrapOnce_lt hx) (wrapOnce_lt hy)]
      split
      case isTrue hland =>
        obtain ⟨rfl, rfl⟩ := hland
        rw [State.cellAfter_lands ⟨hlit, rfl, rfl⟩, hcell]
      case isFalse hmiss =>
        rw [State.cellAfter_misses fun ⟨_, ex, ey⟩ => hmiss ⟨ex.symm, ey.symm⟩, hcell]
    · rw [State.dispAfter_unlit hlit]
      exact ⟨hwf, fun cx cy => by rw [State.cellAfter_misses fun hland => hlit hland.1, hcell]⟩

theorem State.erases_succ : s.Erases x0 y0 (count + 1) ↔ s.Erases x0 y0 count ∨
    ∃ cx cy, s.bitLands x0 y0 count cx cy ∧ s.cellAfter x0 y0 cx cy count = true := by
  constructor
  · rintro ⟨k, cx, cy, hk, hland, hset⟩
    obtain hk | rfl := Nat.lt_succ_iff_lt_or_eq.1 hk
    · exact .inl ⟨k, cx, cy, hk, hland, hset⟩
    · exact .inr ⟨cx, cy, hland, hset⟩
  · rintro (⟨k, cx, cy, hk, hland, hset⟩ | ⟨cx, cy, hland, hset⟩)
    · exact ⟨k, cx, cy, Nat.lt_succ_of_lt hk, hland, hset⟩
    · exact ⟨count, cx, cy, count.lt_succ_self, hland, hset⟩

theorem State.erasedAfter_iff (hd : Display.wf s.cfg.displayW s.cfg.displayH s.disp)
    (h : ∀ k, k < count → s.bitFits x0 y0 k) : s.erasedAfter x0 y0 count = true ↔ s.Erases x0 y0 count := by
  induction count with
  | zero => simp [State.erasedAfter, State.Erases]
  | succ count ih =>
    have hfit : ∀ k, k < count → s.bitFits x0 y0 k := fun k hk => h k (Nat.lt_succ_of_lt hk)
    obtain ⟨-, hcell⟩ := State.drawn_dispAfter hd hfit
    rw [State.erases_succ, ← ih hfit]
    by_cases hlit : s.spriteLit count = true
    · simp [State.erasedAfter_lit hlit, State.bitLands, hlit, hcell]
    · simp [State.erasedAfter_unlit hlit, State.bitLands, hlit]

/-- A state with that buffer is drawn to that bit. -/
theorem Drawn.of_disp_eq {t : State} (hd : Display.wf s.cfg.displayW s.cfg.displayH s.disp)
    (h : ∀ k, k < count → s.bitFits x0 y0 k) (ht : t.disp = s.dispAfter x0 y0 count) : Drawn s t x0 y0 count := by
  obtain ⟨hwf, hcell⟩ := State.drawn_dispAfter hd h
  rw [← ht] at hwf hcell
  exact ⟨hwf, fun cx cy _ _ => hcell cx cy⟩

/-- VF after a whole draw says whether a bit erased its cell (R210). -/
theorem State.reg_vf_afterDraw (hd : Display.wf s.cfg.displayW s.cfg.displayH s.disp)
    (h : ∀ k, k < count → s.bitFits x0 y0 k) :
    (s.Erases x0 y0 count → (s.afterDraw x0 y0 count).reg Reg.vf = 1) ∧
    (¬ s.Erases x0 y0 count → (s.afterDraw x0 y0 count).reg Reg.vf = 0) := by
  rw [State.afterDraw, State.setVF, State.reg_setReg_same, ← State.erasedAfter_iff hd h]
  refine ⟨fun he => ?_, fun he => ?_⟩
  · rw [he]
    rfl
  · rw [Bool.eq_false_of_not_eq_true he]
    rfl
end

/-! ## Draws (R209 to R213, R271) -/

/-- Settles O52: all bits are drawn, and on a buffer at least as large as the sprite no two of them meet. -/
theorem drawInvertsSpriteCells : Obligations.DrawInvertsSpriteCells := by
  intro s x y n x0 y0 count hd hfits
  have hdrawn : Drawn s (s.afterDraw x0 y0 count) x0 y0 count := .of_disp_eq hd hfits rfl
  obtain ⟨hset, hclear⟩ := State.reg_vf_afterDraw hd hfits
  refine ⟨_, exec_drw_fits hfits, rfl, fun r hr => State.reg_setReg_other _ _ _ _ hr, hdrawn, hset, hclear,
    fun hW hH => ⟨hdrawn.first hW hH le_rfl, ?_⟩⟩
  rw [← State.erases_iff hW hH le_rfl]
  exact ⟨hset, hclear⟩

/-- Settles O53: the bits before the failing one are drawn, and its error writes the status alone. -/
theorem drawStopsAtFirstBadBit : Obligations.DrawStopsAtFirstBadBit := by
  intro s x y n bad x0 y0 hd hbad hfits hstop
  have hdrawn : Drawn s ((s.drawBits x0 y0 bad).raise (s.bitError x0 y0 bad)) x0 y0 bad := .of_disp_eq hd hfits rfl
  exact ⟨_, exec_drw_stops hbad hfits hstop, rfl, hdrawn, fun hW hH => hdrawn.first hW hH hbad.le, rfl⟩

/-- Settles O54: a sprite of height 0 has no bits. -/
theorem drawHeightZeroClearsFlag : Obligations.DrawHeightZeroClearsFlag :=
  fun _ _ _ => exec_drw_fits fun _ hk => absurd hk (Nat.not_lt_zero _)

end Sys2Proof.Machine
end

section
/-! PROOF. The host interface between cycles (44_display.md R204, R205; 60_exceptions.md R283): the strict ports, and what
Cycle, Step and Execute answer. -/

namespace Sys2Proof.Machine

/-! ## Read and Set (R201, R204, R205) -/

section
variable {s : State} {x y : Int} {c : HostCall}

theorem strictCheck_in (hx : 0 ≤ x ∧ x < s.cfg.displayW) (hy : 0 ≤ y ∧ y < s.cfg.displayH) :
    strictCheck x y s = .ok () := by
  rw [strictCheck, if_pos ((inRange_iff _ _).2 hx), if_pos ((inRange_iff _ _).2 hy)]

theorem strictCheck_column_out (hx : ¬ (0 ≤ x ∧ x < s.cfg.displayW)) :
    strictCheck x y s = .error (.dimension (.x x)) := by
  rw [strictCheck, if_neg (mt (inRange_iff _ _).1 hx)]

theorem strictCheck_row_out (hx : 0 ≤ x ∧ x < s.cfg.displayW) (hy : ¬ (0 ≤ y ∧ y < s.cfg.displayH)) :
    strictCheck x y s = .error (.dimension (.y y)) := by
  rw [strictCheck, if_pos ((inRange_iff _ _).2 hx), if_neg (mt (inRange_iff _ _).1 hy)]

theorem serve_inside_batch (h : s.slot ≠ 0) : serve c s = (.notEnabled, s) := if_neg h

/-- Read of coordinates inside the buffer answers the cell. -/
theorem serve_read_ok (h : s.slot = 0) (hok : strictCheck x y s = .ok ()) :
    serve (.read x y) s = (.cell (s.disp.cell x.toNat y.toNat), s) := by
  simp only [serve, if_pos h, readPort, hok, Except.map]

/-- Set at coordinates inside the buffer writes the cell. -/
theorem serve_set_ok {v : Bool} (h : s.slot = 0) (hok : strictCheck x y s = .ok ()) :
    serve (.set x y v) s = (.ok, s.setDisp (s.disp.setCell x.toNat y.toNat v)) := by
  simp only [serve, if_pos h, setPort, hok, Except.map]

/-- Both ports answer the error of the check and change nothing. -/
theorem serve_ports_error {v : Bool} {e : CoreError} (h : s.slot = 0) (herr : strictCheck x y s = .error e) :
    serve (.read x y) s = (.err e, s) ∧ serve (.set x y v) s = (.err e, s) := by
  simp only [serve, if_pos h, readPort, setPort, herr, Except.map, and_self]
end

/-- Settles O59: the strict check decides both ports. -/
theorem hostPortsAreStrict : Obligations.HostPortsAreStrict := by
  intro s x y v hslot
  refine ⟨fun hx0 hx hy0 hy => ?_, fun hx => ?_, fun hx0 hx hy => ?_⟩
  · have hok := strictCheck_in ⟨hx0, hx⟩ ⟨hy0, hy⟩
    exact ⟨serve_read_ok hslot hok, _, serve_set_ok hslot hok, rfl,
      fun hd => Display.cell_setCell v hd (by omega) (by omega)⟩
  · exact serve_ports_error hslot (strictCheck_column_out (by omega))
  · exact serve_ports_error hslot (strictCheck_row_out ⟨hx0, hx⟩ (by omega))

/-! ## Cycle, Step and Execute (R269, R283) -/

/-- The reply of a call that ran: `Ok`, or the error that halted the core. -/
def State.reply (t : State) : Reply :=
  match t.status with
  | .running => .ok
  | .halted e => .err e

section
variable {s t : State} {op : Half}

theorem replyOf_next : replyOf s (.next t) = (t.reply, t) := by
  cases h : t.status <;> simp [replyOf, State.reply, h]

theorem stepMany_answers_next (n : Nat) (s : State) : ∃ t, stepMany n s = .next t := by
  induction n generalizing s with
  | zero => exact ⟨s, rfl⟩
  | succ n ih =>
    obtain ⟨u, hu⟩ := stepOnce_answers_next s
    rw [stepMany, hu]
    dsimp only
    split
    · exact ⟨u, rfl⟩
    · exact ih u

theorem cycle_answers_next (h : s.status = .running) : ∃ t, cycle s = .next t := by
  obtain ⟨u, hu⟩ := stepMany_answers_next s.cfg.speed (s.setOut [])
  rw [cycle, whenRunning_running _ h, hu]
  exact ⟨_, rfl⟩

/-- `Execute` leaves the batch position and the ports as they were: it runs no tick. -/
theorem execute_keeps_batch (h : execute op s = .next t) : t.slot = s.slot ∧ t.out = s.out := by
  unfold execute at h
  split at h
  · cases h
    exact ⟨rfl, rfl⟩
  · obtain ⟨-, -, -, -, -, -, -, hslot, hout⟩ := otherStateWriters _ _ _ h
    exact ⟨hslot, hout⟩

/-- `Step` leaves the batch position and the ports as they were: it runs no tick. -/
theorem stepOnce_keeps_batch (h : stepOnce s = .next t) : t.slot = s.slot ∧ t.out = s.out := by
  obtain hpc | hpc := le_or_gt s.pc.toNat 0xFFE
  · rw [stepOnce_wordAtPc hpc] at h
    exact execute_keeps_batch h
  · rw [stepOnce_of_fetch_out hpc] at h
    cases h
    exact ⟨rfl, rfl⟩

theorem serve_cycle (hslot : s.slot = 0) (h : cycle s = .next t) : serve .cycle s = (t.reply, t) := by
  simp only [serve, if_pos hslot, h, replyOf_next]

theorem serve_step (hslot : s.slot = 0) (hrun : s.status = .running) (h : stepOnce (s.setOut []) = .next t) :
    serve .step s = (t.reply, t) := by
  simp only [serve, if_pos hslot, whenRunning_running _ hrun, h, replyOf_next]

theorem serve_execute (hslot : s.slot = 0) (hrun : s.status = .running) (h : execute op (s.setOut []) = .next t) :
    serve (.execute op) s = (t.reply, t) := by
  simp only [serve, if_pos hslot, whenRunning_running _ hrun, h, replyOf_next]
end

/-- Settles O60: each call answers a next state, and only Cycle may move the batch position or the ports. -/
theorem hostCallsBetweenCycles : Obligations.HostCallsBetweenCycles := by
  refine fun s c => ⟨serve_inside_batch, fun hslot hrun op => ⟨?_, ?_, ?_⟩⟩
  · obtain ⟨t, ht⟩ := cycle_answers_next hrun
    exact ⟨t, ht, serve_cycle hslot ht⟩
  · obtain ⟨t, ht⟩ := stepOnce_answers_next (s.setOut [])
    obtain ⟨htslot, htout⟩ := stepOnce_keeps_batch ht
    exact ⟨t, ht, htslot.trans hslot, htout, serve_step hslot hrun ht⟩
  · obtain ⟨t, ht⟩ := execute_answers_next op (s.setOut [])
    obtain ⟨htslot, htout⟩ := execute_keeps_batch ht
    exact ⟨t, ht, htslot.trans hslot, htout, serve_execute hslot hrun ht⟩

end Sys2Proof.Machine
end

section
/-! PROOF. Timers and keys (45_timers_keys.md R240 to R246; 60_exceptions.md R275 to R277, R309): the transfers, the key
instructions, and the timers and the port under repeated ticks. -/

namespace Sys2Proof.Machine

/-! ## Transfers and keys (R240 to R246) -/

/-- Settles O55: each transfer is one update of a register or a timer. -/
theorem timerTransfers : Obligations.TimerTransfers :=
  fun s x => ⟨exec_ldVxDt s x, exec_ldDtVx s x, exec_ldStVx s x⟩

/-- Settles O56: each key instruction answers the state it starts in. -/
theorem keyInstructionsDoNothing : Obligations.KeyInstructionsDoNothing :=
  fun s x => ⟨exec_skp s x, exec_sknp s x, exec_ldVxK s x⟩

/-! ## One tick (R275, R276) -/

section
variable (s : State)

@[simp] theorem tick_dt : (tick s).dt = countDown s.dt := rfl
@[simp] theorem tick_st : (tick s).st = countDown s.st := rfl
@[simp] theorem tick_cfg : (tick s).cfg = s.cfg := rfl

/-- As a number, a timer's decrement is the truncated predecessor. -/
theorem toNat_countDown (b : Byte) : (countDown b).toNat = b.toNat.pred := by
  rw [countDown, Nat.pred_eq_sub_one]
  split <;> bv_omega

/-- The tone plays exactly if ST is above 0 after the decrement (R276). -/
theorem tick_out : (tick s).out = [if 0 < (tick s).st.toNat then .play s.cfg.toneHz else .stop, .render] := by
  have above : (tick s).st = 0 ↔ ¬ 0 < (tick s).st.toNat := by bv_omega
  calc (tick s).out
    _ = [audioCommand (tick s), .render] := rfl
    _ = _ := by simp only [audioCommand, above, ite_not, tick_cfg]
end

/-! ## Repeated ticks (R275, R309) -/

section
variable (s : State) (k : Nat)

/-- `k` decrements, as a number: the truncated difference. -/
theorem toNat_iterate_countDown (b : Byte) : (countDown^[k] b).toNat = b.toNat - k := by
  have onNumbers : Function.Semiconj BitVec.toNat countDown Nat.pred := toNat_countDown
  rw [onNumbers.iterate_right k b, Nat.pred_iterate]

theorem iterate_tick_dt : (tick^[k] s).dt = countDown^[k] s.dt :=
  Function.Semiconj.iterate_right (f := State.dt) tick_dt k s

theorem iterate_tick_st : (tick^[k] s).st = countDown^[k] s.st :=
  Function.Semiconj.iterate_right (f := State.st) tick_st k s

theorem iterate_tick_cfg : (tick^[k] s).cfg = s.cfg := by
  induction k with
  | zero => rfl
  | succ k ih => rw [Function.iterate_succ_apply', tick_cfg, ih]

/-- The timers after `k` ticks, as numbers. -/
theorem toNat_iterate_tick_dt : (tick^[k] s).dt.toNat = s.dt.toNat - k := by
  rw [iterate_tick_dt, toNat_iterate_countDown]

theorem toNat_iterate_tick_st : (tick^[k] s).st.toNat = s.st.toNat - k := by
  rw [iterate_tick_st, toNat_iterate_countDown]

/-- What the last of `k + 1` ticks commands: ST is above 0 after it exactly if it began above `k + 1`. -/
theorem iterate_tick_succ_out : (tick^[k + 1] s).out =
    [if k + 1 < s.st.toNat then .play s.cfg.toneHz else .stop, .render] := by
  have left : 0 < (tick (tick^[k] s)).st.toNat ↔ k + 1 < s.st.toNat := by
    rw [← Function.iterate_succ_apply' tick, toNat_iterate_tick_st, Nat.sub_pos_iff_lt]
  simp only [Function.iterate_succ_apply', tick_out, left, iterate_tick_cfg]
end

/-- Settles O11: the timers are counted down `k` times as numbers, and the last tick commands from what is left of ST. -/
theorem timersCountDownToZero : Obligations.TimersCountDownToZero := by
  intro s k
  refine ⟨toNat_iterate_tick_dt s k, toNat_iterate_tick_st s k, fun hk => ?_⟩
  obtain ⟨j, rfl⟩ := Nat.exists_eq_add_one.2 hk
  exact iterate_tick_succ_out s j

end Sys2Proof.Machine
end

section
/-! PROOF. Errors, halted cores and cycles (60_exceptions.md R260 to R284, R312): which instructions raise what, the end
of a slot, the tick's commands, a halted core, and a cycle of the spec as SPEED steps of the machine. -/

namespace Sys2Proof.Machine

/-! ## What an instruction raises (R260, R271) -/

section
variable {s t : State} {x y : Reg} {n : BitVec 4}

/-- Status is an error of an access past the end of memory. -/
def State.AddressHalted (t : State) : Prop := ∃ a, 0xFFF < a ∧ t.status = .halted (.addressOutOfRange a)

/-- An instruction whose accesses end at `last` raises nothing if that is inside memory, else the first address past the
end. -/
theorem exec_status_of_accesses {i : Instr} {last : Nat}
    (hin : last ≤ addrMax → ∃ u, exec i s = .next u ∧ u.status = s.status)
    (hout : addrMax < last → ∃ u k, s.i.toNat + k = max s.i.toNat 0x1000 ∧
      exec i s = .next (State.raise u (.addressOutOfRange (s.i.toNat + k))))
    (h : exec i s = .next t) : t.status = s.status ∨ t.AddressHalted := by
  obtain hlast | hlast := le_or_gt last addrMax
  · obtain ⟨u, hu, hstatus⟩ := hin hlast
    obtain rfl := Host.Outcome.next.inj (hu.symm.trans h)
    exact .inl hstatus
  · obtain ⟨u, k, hfirst, hu⟩ := hout hlast
    obtain rfl := Host.Outcome.next.inj (hu.symm.trans h)
    exact .inr ⟨_, State.first_out hfirst, rfl⟩

theorem exec_ldB_status : exec (.ldB x) s = .next t → t.status = s.status ∨ t.AddressHalted :=
  exec_status_of_accesses (fun hin => ⟨_, exec_ldB_in hin, rfl⟩) fun hout =>
    let ⟨_, hk, hfirst⟩ := State.exists_first_out hout
    ⟨_, _, hfirst, exec_ldB_out hk hfirst⟩

theorem exec_ldMemVx_status : exec (.ldMemVx x) s = .next t → t.status = s.status ∨ t.AddressHalted :=
  exec_status_of_accesses (fun hin => ⟨_, exec_ldMemVx_in hin, rfl⟩) fun hout =>
    let ⟨_, hk, hfirst⟩ := State.exists_first_reg_out hout
    ⟨_, _, hfirst, exec_ldMemVx_out hk hfirst⟩

theorem exec_ldVxMem_status : exec (.ldVxMem x) s = .next t → t.status = s.status ∨ t.AddressHalted :=
  exec_status_of_accesses (fun hin => ⟨_, exec_ldVxMem_in hin, rfl⟩) fun hout =>
    let ⟨_, hk, hfirst⟩ := State.exists_first_reg_out hout
    ⟨_, _, hfirst, exec_ldVxMem_out hk hfirst⟩

/-- The error of a bit that cannot be drawn is an address past the end, or a coordinate the single wrap rejects. -/
theorem State.bitError_cases {x0 y0 k : Nat} (h : ¬ s.bitFits x0 y0 k) :
    (∃ a, 0xFFF < a ∧ s.bitError x0 y0 k = .addressOutOfRange a) ∨
    (∃ c : Int, wrap1 c s.cfg.displayW = none ∧ s.bitError x0 y0 k = .dimension (.x c)) ∨
    (∃ c : Int, wrap1 c s.cfg.displayH = none ∧ s.bitError x0 y0 k = .dimension (.y c)) := by
  unfold State.bitError
  split
  case isTrue hout => exact .inl ⟨_, hout, rfl⟩
  case isFalse hin =>
    split
    case isTrue hx => exact .inr (.inl ⟨_, wrap1_of_le hx, rfl⟩)
    case isFalse hx =>
      have hy : 2 * s.cfg.displayH ≤ y0 + k / 8 :=
        Nat.not_lt.1 fun hy => h ⟨Nat.not_lt.1 hin, fun _ => ⟨Nat.not_le.1 hx, hy⟩⟩
      exact .inr (.inr ⟨_, wrap1_of_le hy, rfl⟩)

/-- Dxyn draws all its bits and raises nothing, or raises the error of a bit that cannot be drawn. -/
theorem exec_drw_status (h : exec (.drw x y n) s = .next t) :
    t.status = s.status ∨ ∃ bad, ¬ s.bitFits (s.reg x).toNat (s.reg y).toNat bad ∧
      t.status = .halted (s.bitError (s.reg x).toNat (s.reg y).toNat bad) := by
  by_cases hstop : ∃ k, k < 8 * n.toNat ∧ ¬ s.bitFits (s.reg x).toNat (s.reg y).toNat k
  · obtain ⟨hbad, hbit⟩ := Nat.find_spec hstop
    have hbefore : ∀ k, k < Nat.find hstop → s.bitFits (s.reg x).toNat (s.reg y).toNat k := fun k hk =>
      not_not.1 fun hk' => Nat.find_min hstop hk ⟨hk.trans hbad, hk'⟩
    obtain rfl := Host.Outcome.next.inj ((exec_drw_stops hbad hbefore hbit).symm.trans h)
    exact .inr ⟨_, hbit, rfl⟩
  · have hfits : ∀ k, k < 8 * n.toNat → s.bitFits (s.reg x).toNat (s.reg y).toNat k := fun k hk =>
      not_not.1 fun hk' => hstop ⟨k, hk, hk'⟩
    obtain rfl := Host.Outcome.next.inj ((exec_drw_fits hfits).symm.trans h)
    exact .inl rfl
end

/-- Settles O16: the six instructions that can raise, each by what it can leave; the others keep the status. -/
theorem onlyListedErrorsHalt : Obligations.OnlyListedErrorsHalt := by
  intro i s t h hne
  cases i with
  | ret =>
    obtain ⟨a, rest, -, rfl⟩ | ⟨hstack, rfl⟩ := exec_ret_cases h
    · exact absurd rfl hne
    · exact .inl ⟨rfl, hstack, rfl⟩
  | call nnn =>
    obtain ⟨-, rfl⟩ | ⟨hfull, rfl⟩ := exec_call_cases h
    · exact absurd rfl hne
    · exact .inr (.inl ⟨⟨nnn, rfl⟩, State.stackFull_iff.1 hfull, rfl⟩)
  | ldB x => exact .inr (.inr (.inl ⟨⟨x, .inl rfl⟩, (exec_ldB_status h).resolve_left hne⟩))
  | ldMemVx x => exact .inr (.inr (.inl ⟨⟨x, .inr (.inl rfl)⟩, (exec_ldMemVx_status h).resolve_left hne⟩))
  | ldVxMem x => exact .inr (.inr (.inl ⟨⟨x, .inr (.inr rfl)⟩, (exec_ldVxMem_status h).resolve_left hne⟩))
  | drw x y n =>
    obtain ⟨bad, hbit, hstatus⟩ := (exec_drw_status h).resolve_left hne
    refine .inr (.inr (.inr ⟨⟨x, y, n, rfl⟩, ?_⟩))
    rw [hstatus]
    obtain ⟨a, ha, e⟩ | ⟨c, hc, e⟩ | ⟨c, hc, e⟩ := State.bitError_cases hbit <;> rw [e]
    · exact .inl ⟨a, ha, rfl⟩
    · exact .inr (.inl ⟨c, hc, rfl⟩)
    · exact .inr (.inr ⟨c, hc, rfl⟩)
  | _ =>
    obtain rfl : _ = t := by simpa using h
    exact absurd (by simp) hne

/-! ## A halted core (R268, R283) -/

section
variable {s : State} {e : CoreError} {c : HostCall} {op : Half}

theorem step_halted (h : s.status = .halted e) : step s = .fault (.coreHalted e) := whenRunning_halted _ h

theorem cycle_halted (h : s.status = .halted e) : cycle s = .fault (.coreHalted e) := whenRunning_halted _ h

/-- The calls that would run instructions are not enabled, at a cycle boundary or inside a batch. -/
theorem serve_halted (h : s.status = .halted e) (hc : c = .cycle ∨ c = .step ∨ c = .execute op) :
    serve c s = (.notEnabled, s) := by
  by_cases hslot : s.slot = 0
  · obtain rfl | rfl | rfl := hc <;>
      simp only [serve, if_pos hslot, cycle_halted h, whenRunning_halted _ h, replyOf]
  · exact serve_inside_batch hslot
end

/-- Settles O9: the guard on the status answers for the core, and its fault for the host. -/
theorem haltedCoreHasNoStep : Obligations.HaltedCoreHasNoStep := fun _ _ op h =>
  ⟨step_halted h, cycle_halted h, serve_halted (op := op) h (.inl rfl), serve_halted (op := op) h (.inr (.inl rfl)),
    serve_halted h (.inr (.inr rfl))⟩

/-! ## The tick and the end of a slot (R269, R275 to R277) -/

/-- Settles O10: ST is 0 after the decrement exactly if it was at most 1 before it. -/
theorem tickDecrementsAndCommands : Obligations.TickDecrementsAndCommands := by
  intro s
  have hcommand : audioCommand (tick s) = if s.st.toNat ≤ 1 then .stop else .play s.cfg.toneHz := by
    have hstop : (tick s).st = 0 ↔ s.st.toNat ≤ 1 := by
      rw [tick_st, ← BitVec.toNat_inj, toNat_countDown, Nat.pred_eq_sub_one]
      exact Nat.sub_eq_zero_iff_le
    simp only [audioCommand, hstop, tick_cfg]
  rw [← hcommand]
  rfl

/-- Settles O12: the three cases of the end of a slot. -/
theorem slotEndsWithTickOrCount : Obligations.SlotEndsWithTickOrCount := fun s =>
  ⟨fun h => closeSlot_halted (s.isHalted_iff.2 h),
    fun hrun hslot => closeSlot_inner (s.isHalted_of_running hrun) hslot,
    fun hrun hslot => closeSlot_last (s.isHalted_of_running hrun) hslot⟩

/-! ## An instruction step in another batch position (R36, R310)

The spec's loop runs at batch position 0 with the ports clear; the machine's state after as many steps differs from the
loop's in `slot` and `out` alone. -/

theorem State.rebatch_self {k : Nat} {o : List Output} {s : State} (hslot : s.slot = k) (hout : s.out = o) :
    s.rebatch k o = s := by
  subst hslot hout
  rfl

section
variable (k : Nat) (o : List Output) (s : State)

theorem fetch_rebatch : fetch (s.rebatch k o) = (fetch s).mapState (State.rebatch k o) := by
  rw [fetch, fetch, memRead_rebatch]
  refine Flow.bind_mapState _ fun hi t => ?_
  rw [memRead_rebatch]
  exact Flow.bind_mapState _ fun lo u => rfl

theorem execute_rebatch (op : Half) : execute op (s.rebatch k o) = onNext (execute op s) (State.rebatch k o) := by
  unfold execute
  cases decodeWord op with
  | error e => rfl
  | ok i => exact instructionsIgnoreBatchPosition i s.advance k o

theorem stepOnce_rebatch : stepOnce (s.rebatch k o) = onNext (stepOnce s) (State.rebatch k o) := by
  rw [stepOnce, stepOnce, fetch_rebatch]
  cases fetch s with
  | stop e t => rfl
  | go op t => exact execute_rebatch k o t op
end

/-! ## The spec's loop, one step at a time (R269) -/

/-- How a cycle ends after its steps: nothing after an error, else the tick. -/
def State.endCycle (u : State) : State := if u.isHalted then u else tick u

section
variable {s u : State} {e : CoreError} {j n : Nat}

theorem State.endCycle_halted (h : u.status = .halted e) : u.endCycle = u := if_pos (u.isHalted_iff.2 ⟨e, h⟩)

theorem State.endCycle_running (h : u.status = .running) : u.endCycle = tick u := by
  rw [State.endCycle, u.isHalted_of_running h]
  rfl

theorem stepMany_succ_halted (hu : stepOnce s = .next u) (h : u.status = .halted e) :
    stepMany (n + 1) s = .next u := by
  simp only [stepMany, hu, u.isHalted_iff.2 ⟨e, h⟩, if_true]

theorem stepMany_succ_running (hu : stepOnce s = .next u) (h : u.status = .running) :
    stepMany (n + 1) s = stepMany n u := by
  simp only [stepMany, hu, u.isHalted_of_running h, Bool.false_eq_true, if_false]

theorem stepMany_one (hu : stepOnce s = .next u) : stepMany 1 s = .next u := by
  cases h : u.status with
  | halted e => exact stepMany_succ_halted hu h
  | running => exact stepMany_succ_running hu h

theorem cycle_of_running (h : s.status = .running) (hu : stepMany s.cfg.speed (s.setOut []) = .next u) :
    cycle s = .next u.endCycle := by
  rw [cycle, whenRunning_running _ h, hu]
  rfl

/-- No instruction step changes the parameters (R8). -/
theorem stepOnce_cfg (h : stepOnce s = .next u) : u.cfg = s.cfg := by
  obtain ⟨-, e⟩ | ⟨-, op, -, -, e⟩ | ⟨-, op, i, -, -, e⟩ := stepOnce_cases s <;> rw [e] at h
  · cases h
    rfl
  · cases h
    rfl
  · exact exec_cfg (s := s.advance) h

/-- The machine's step from the loop's state, in any batch position, is the loop's step and the end of the slot. -/
theorem step_rebatch (o : List Output) (hrun : s.status = .running) :
    ∃ u, stepOnce s = .next u ∧ step (s.rebatch j o) = .next (closeSlot (u.rebatch j [])) ∧
      u.slot = s.slot ∧ u.out = s.out ∧ u.cfg = s.cfg := by
  obtain ⟨u, hu⟩ := stepOnce_answers_next s
  obtain ⟨huslot, huout⟩ := stepOnce_keeps_batch hu
  have hstep : stepOnce (s.rebatch j []) = .next (u.rebatch j []) := by rw [stepOnce_rebatch, hu, onNext_next]
  refine ⟨u, hu, ?_, huslot, huout, stepOnce_cfg hu⟩
  rw [step_of_running (s := s.rebatch j o) hrun]
  exact congrArg (onNext · closeSlot) hstep

/-- After an error, or in the last slot, the slot ends as the cycle does. -/
theorem closeSlot_rebatch_endCycle (hslot : u.slot = 0) (hout : u.out = [])
    (h : u.status = .running → u.cfg.speed ≤ j + 1) : closeSlot (u.rebatch j []) = u.endCycle := by
  have hself : u.rebatch 0 [] = u := State.rebatch_self hslot hout
  cases hstatus : u.status with
  | halted e =>
    calc closeSlot (u.rebatch j [])
      _ = u.rebatch 0 [] := closeSlot_halted ((State.isHalted_iff _).2 ⟨e, hstatus⟩)
      _ = u.endCycle := by rw [hself, State.endCycle_halted hstatus]
  | running =>
    calc closeSlot (u.rebatch j [])
      _ = tick (u.rebatch 0 []) := closeSlot_last (s := u.rebatch j []) (State.isHalted_of_running _ hstatus) (h hstatus)
      _ = u.endCycle := by rw [hself, State.endCycle_running hstatus]

/-- Before the last slot, a running core's slot is counted. -/
theorem closeSlot_rebatch_inner (hrun : u.status = .running) (h : j + 1 < u.cfg.speed) :
    closeSlot (u.rebatch j []) = u.rebatch (j + 1) [] :=
  closeSlot_inner (s := u.rebatch j []) (State.isHalted_of_running _ hrun) h
end

/-! ## Cycle as SPEED steps (R269, R312) -/

/-- The machine ends a batch in `t`, from `s` with `n` slots to go: it runs all of them, or an error ends the batch early
and leaves a core with no step. -/
def State.BatchEnds (s : State) (n : Nat) (t : State) : Prop :=
  (t.status = .running → run n s = .next t) ∧
  ∀ e, t.status = .halted e →
    ∃ k, 1 ≤ k ∧ k ≤ n ∧ run k s = .next t ∧ ∀ m, k < m → run m s = .fault (.coreHalted e)

section
variable {s t u : State} {n : Nat}

/-- A run of at least one step from a halted core faults. -/
theorem run_halted {e : CoreError} (h : s.status = .halted e) (hn : 0 < n) : run n s = .fault (.coreHalted e) := by
  obtain ⟨m, rfl⟩ := Nat.exists_eq_add_one.2 hn
  exact run_succ_fault m (step_halted h)

/-- A step that leaves a halted core, or the step of the last slot, ends the batch. -/
theorem State.BatchEnds.of_end (h : step s = .next t) (hlast : t.status = .running → n = 0) :
    s.BatchEnds (n + 1) t := by
  have hrun (m : Nat) : run (m + 1) s = run m t := run_succ_next m h
  refine ⟨fun ht => ?_, fun e he => ⟨1, le_rfl, Nat.le_add_left 1 n, hrun 0, fun m hm => ?_⟩⟩
  · rw [hlast ht]
    exact hrun 0
  · obtain ⟨m, rfl⟩ := Nat.exists_eq_add_of_lt hm
    rw [Nat.add_comm 1, hrun]
    exact run_halted he (by omega)

/-- A step inside the batch leaves its end to the slots that follow. -/
theorem State.BatchEnds.of_step (h : step s = .next u) (hu : u.BatchEnds n t) : s.BatchEnds (n + 1) t := by
  have hrun (m : Nat) : run (m + 1) s = run m u := run_succ_next m h
  obtain ⟨hgo, hstop⟩ := hu
  refine ⟨fun ht => (hrun n).trans (hgo ht), fun e he => ?_⟩
  obtain ⟨k, hk, hkn, hend, hafter⟩ := hstop e he
  refine ⟨k + 1, by omega, by omega, (hrun k).trans hend, fun m hm => ?_⟩
  obtain ⟨m, rfl⟩ := Nat.exists_eq_add_one.2 (Nat.zero_lt_of_lt hm)
  exact (hrun m).trans (hafter m (Nat.lt_of_succ_lt_succ hm))

/-- The simulation: from the loop's state `w` in the batch position `j` with `n + 1` slots to go, the machine ends the
batch where the loop's `n + 1` steps and the end of the cycle do. -/
theorem batchEnds_of_stepMany (n j : Nat) (o : List Output) (w : State) (hrun : w.status = .running)
    (hslot : w.slot = 0) (hout : w.out = []) (hspeed : j + (n + 1) = w.cfg.speed)
    (h : stepMany (n + 1) w = .next t) : (w.rebatch j o).BatchEnds (n + 1) t.endCycle := by
  induction n generalizing j o w with
  | zero =>
    obtain ⟨u, hu, hstep, huslot, huout, hucfg⟩ := step_rebatch (j := j) o hrun
    rw [← hucfg] at hspeed
    obtain rfl := Host.Outcome.next.inj ((stepMany_one hu).symm.trans h)
    rw [closeSlot_rebatch_endCycle (huslot.trans hslot) (huout.trans hout) fun _ => hspeed.ge] at hstep
    exact .of_end hstep fun _ => rfl
  | succ n ih =>
    obtain ⟨u, hu, hstep, huslot, huout, hucfg⟩ := step_rebatch (j := j) o hrun
    rw [← hucfg] at hspeed
    cases hstatus : u.status with
    | halted e =>
      obtain rfl := Host.Outcome.next.inj ((stepMany_succ_halted hu hstatus).symm.trans h)
      have hno : u.status ≠ .running := by simp [hstatus]
      rw [closeSlot_rebatch_endCycle (huslot.trans hslot) (huout.trans hout) fun hgo => absurd hgo hno] at hstep
      exact .of_end hstep fun hgo => absurd (State.endCycle_halted hstatus ▸ hgo) hno
    | running =>
      rw [stepMany_succ_running hu hstatus] at h
      rw [closeSlot_rebatch_inner hstatus (by omega)] at hstep
      exact .of_step hstep (ih (j + 1) [] u hstatus (huslot.trans hslot) (huout.trans hout) (by omega) h)
end

/-- Settles O13: the simulation from the cycle boundary, where no slot of the batch is used. -/
theorem cycleIsSpeedSteps : Obligations.CycleIsSpeedSteps := by
  intro s hrun hslot hspeed
  obtain ⟨u, hu⟩ := stepMany_answers_next s.cfg.speed (s.setOut [])
  obtain ⟨n, hn⟩ := Nat.exists_eq_add_one.2 hspeed
  refine ⟨u.endCycle, cycle_of_running hrun hu, ?_⟩
  have hsim : (s.rebatch 0 s.out).BatchEnds (n + 1) u.endCycle :=
    batchEnds_of_stepMany n 0 s.out (s.setOut []) hrun hslot rfl (by simp [hn]) (hn ▸ hu)
  have hstart : s.rebatch 0 s.out = s := State.rebatch_self hslot rfl
  rw [hstart, ← hn] at hsim
  exact hsim

end Sys2Proof.Machine
end

section
/-! PROOF. Construction and the inside of a batch (70_reset_and_hazards.md R300, R301, R307 to R309): what Construct
answers, the memory it builds, and a step that is not the last of its batch. -/

namespace Sys2Proof.Machine

/-! ## Inside a batch (R307 to R309) -/

section
variable {s t : State}

/-- Before the last slot of its batch, the end of a slot moves the batch position alone (R269). -/
theorem closeSlot_before_last (h : s.slot + 1 < s.cfg.speed) : ∃ n, closeSlot s = s.setSlot n := by
  cases hhalt : s.isHalted with
  | true => exact ⟨0, closeSlot_halted hhalt⟩
  | false => exact ⟨s.slot + 1, closeSlot_inner hhalt h⟩

/-- An instruction step moves DT only if the word at pc is Fx15, and ST only if it is Fx18 (R30, R31). -/
theorem stepOnce_timer_writers (h : stepOnce s = .next t) :
    (t.dt ≠ s.dt → ∃ x, decodeWord s.wordAtPc = .ok (.ldDtVx x)) ∧
    (t.st ≠ s.st → ∃ x, decodeWord s.wordAtPc = .ok (.ldStVx x)) := by
  obtain hpc | hpc := le_or_gt s.pc.toNat 0xFFE
  · cases hd : decodeWord s.wordAtPc with
    | error e =>
      rw [stepOnce_of_decode_error hpc hd] at h
      cases h
      exact ⟨absurd rfl, absurd rfl⟩
    | ok i =>
      rw [stepOnce_of_decode_ok hpc hd] at h
      obtain ⟨-, -, hdt, hst, -⟩ := otherStateWriters _ _ _ h
      exact ⟨fun hne => (hdt hne).imp fun _ => congrArg _, fun hne => (hst hne).imp fun _ => congrArg _⟩
  · rw [stepOnce_of_fetch_out hpc] at h
    cases h
    exact ⟨absurd rfl, absurd rfl⟩
end

/-- Settles O14: the instruction step drives no port and moves a timer only by its own instruction, and the end of a
slot that is not the last runs no tick. -/
theorem batchInsideIsQuiet : Obligations.BatchInsideIsQuiet := by
  intro s t hslot h
  obtain ⟨e, -, hfault⟩ | ⟨-, u, hu, hstep⟩ := step_cases s
  · rw [hfault] at h
    cases h
  · obtain ⟨huslot, huout⟩ := stepOnce_keeps_batch hu
    have htimers := stepOnce_timer_writers hu
    have hinner : u.slot + 1 < u.cfg.speed := by
      rw [huslot, stepOnce_cfg hu]
      exact hslot
    obtain ⟨n, hclose⟩ := closeSlot_before_last hinner
    rw [hstep, hclose] at h
    cases h
    exact ⟨huout, htimers⟩

/-! ## What Construct answers (R300, R301, R206) -/

/-- The core that `Construct` builds: the reset state with its own parameters, the image stored at 0x200, and a blank
buffer. -/
def State.constructed (cfg : Config) (rom : List Byte) : State :=
  { State.reset with
    mem := Memory.writeList cfg.font [] 0x200 rom
    disp := Display.blank cfg.displayW cfg.displayH
    cfg := cfg }

section
variable {cfg : Config} {rom : List Byte}

theorem imageFits_iff : imageFits rom = true ↔ rom.length ≤ 3584 := decide_eq_true_iff

theorem Config.displayOk_iff : cfg.displayOk = true ↔ 1 ≤ cfg.displayW ∧ 1 ≤ cfg.displayH := by
  simp [Config.displayOk]

theorem construct_ok (hrom : rom.length ≤ 3584) (hw : 1 ≤ cfg.displayW) (hh : 1 ≤ cfg.displayH) :
    construct cfg rom = .ok (State.constructed cfg rom) := by
  rw [construct, if_pos (imageFits_iff.2 hrom), if_pos (Config.displayOk_iff.2 ⟨hw, hh⟩)]
  rfl

theorem construct_tooLarge (hrom : 3584 < rom.length) :
    construct cfg rom = .error (.programTooLarge rom.length) := by
  rw [construct, if_neg (mt imageFits_iff.1 (by omega))]

theorem construct_badSize (hrom : rom.length ≤ 3584) (hsize : cfg.displayW = 0 ∨ cfg.displayH = 0) :
    construct cfg rom = .error (.dimension (.init cfg.displayW cfg.displayH)) := by
  rw [construct, if_pos (imageFits_iff.2 hrom), if_neg (mt Config.displayOk_iff.1 (by omega))]

/-! ## The memory of a constructed core (R44, R45, R300) -/

theorem State.byteAt_constructed (a : Nat) : (State.constructed cfg rom).byteAt a =
    if 0x200 ≤ a then (rom[a - 0x200]?).getD (Memory.resetByte cfg.font a) else Memory.resetByte cfg.font a :=
  Memory.read_writeList _ _ _ _ _

/-- Outside the image, memory has its reset contents. -/
theorem State.byteAt_constructed_outside {a : Nat} (h : a < 0x200 ∨ 0x200 + rom.length ≤ a) :
    (State.constructed cfg rom).byteAt a = Memory.resetByte cfg.font a := by
  rw [State.byteAt_constructed]
  split
  · rw [List.getElem?_eq_none (by omega), Option.getD_none]
  · rfl

/-- Byte `k` of the image is at `0x200 + k`. -/
theorem State.byteAt_constructed_image {k : Nat} (h : k < rom.length) :
    (State.constructed cfg rom).byteAt (0x200 + k) = rom[k] := by
  rw [State.byteAt_constructed, if_pos (Nat.le_add_right _ _), Nat.add_sub_cancel_left,
    List.getElem?_eq_getElem h, Option.getD_some]

/-! ## The invariants of a constructed core (R300) -/

theorem Config.wellFormed_bounds (h : cfg.wellFormed = true) :
    1 ≤ cfg.displayW ∧ 1 ≤ cfg.displayH ∧ 1 ≤ cfg.speed := by
  simp only [Config.wellFormed, Config.speedOk, Bool.and_eq_true, Config.displayOk_iff, decide_eq_true_eq] at h
  obtain ⟨⟨⟨⟨hw, hh⟩, -⟩, hspeed⟩, -⟩ := h
  exact ⟨hw, hh, hspeed⟩

/-- The image ends inside memory, so storing it keeps memory canonical. -/
theorem State.constructed_storageOk (hrom : rom.length ≤ 3584) : (State.constructed cfg rom).StorageOk := by
  have hend : 0x200 + rom.length ≤ addrMax + 1 := by
    simp only [addrMax]
    omega
  exact ⟨Memory.wf_writeList _ rom hend (Memory.wf_nil _), Display.wf_blank _ _⟩

/-- pc, the stack and the batch position are those of reset. -/
theorem State.constructed_inv (hcfg : cfg.wellFormed = true) (hrom : rom.length ≤ 3584) :
    (State.constructed cfg rom).Inv := by
  obtain ⟨-, -, hspeed⟩ := Config.wellFormed_bounds hcfg
  obtain ⟨-, -, hpc, -, -⟩ := resetMeetsInvariants
  exact ⟨hcfg, State.constructed_storageOk hrom, hpc, fun l _ => Nat.zero_le l, hspeed, fun _ => rfl⟩
end

/-- Settles O58: the three answers of Construct, and the memory and the buffer of the core it accepts. -/
theorem constructPlacesImage : Obligations.ConstructPlacesImage := by
  refine fun cfg rom => ⟨fun hrom hw hh => ?_, construct_tooLarge, construct_badSize⟩
  refine ⟨_, construct_ok hrom hw hh, rfl, Display.wf_blank _ _, Display.cell_blank _ _, fun a ha => ?_,
    fun k => State.byteAt_constructed_image, fun a ha hout => ?_⟩
  · rw [State.byteAt_constructed_outside (.inl (by omega))]
    exact dif_pos ha
  · rw [State.byteAt_constructed_outside hout]
    exact dif_neg (by omega)

/-- Settles O19: parameters in range leave an image that is too large as the only refusal. -/
theorem constructMeetsInvariants : Obligations.ConstructMeetsInvariants := by
  intro cfg rom s hcfg h
  obtain hrom | hrom := le_or_gt rom.length 3584
  · obtain ⟨hw, hh, -⟩ := Config.wellFormed_bounds hcfg
    rw [construct_ok hrom hw hh] at h
    cases h
    exact State.constructed_inv hcfg hrom
  · rw [construct_tooLarge hrom] at h
    cases h

end Sys2Proof.Machine
end
